-- ==== Sys2Proof/Word.lean ====
section
/-! DEFINITION. The word types of the MidiDmxBridge core (00_scope R11, R12): every quantity is an unsigned
bit string of the width the spec gives it. -/

namespace Sys2Proof

/-- A received byte, an intensity, or a channel index as an interface carries it (R11: 8 bits). -/
abbrev Byte := BitVec 8

/-- A channel index inside a register file (R11: 7 bits), 0 to 127. -/
abbrev Chan := BitVec 7

/-- A MIDI channel number (R28, R84: 4 bits), 0 to 15. -/
abbrev MidiChan := BitVec 4

/-- A stored gain (R29, R30: 11 bits; only 0 to 1024 are ever held, R37 INV1). -/
abbrev Gain := BitVec 11

/-- A gain or a raw sensor reading as a command carries it (R80: 16 bits). -/
abbrev Half := BitVec 16

/-- A command word (R75: 32 bits). -/
abbrev Command := BitVec 32

/-- A channel register file: 128 slots of 8 bits (R20, R21, R22). -/
abbrev ChanFile := Vector Byte 128

end Sys2Proof
end

