-- ==== Sys2Proof/Config.lean ====
section
/-! DEFINITION. The fixed constants of 00_scope R9 that a rule computes with, and the parameters of R10. The
others of R9 are widths and shapes: `NMIDICH` is the 4 bits of `MidiChan`, `FRAME_LEN` the parser's three states. -/

namespace Sys2Proof

/-- `NCH`: slots in each channel register file (R9). -/
abbrev nch : Nat := 128

/-- `CH_MAX`: the largest channel index (R9). -/
abbrev chMax : Nat := 127

/-- `CC_MARKER`: the high nibble of a Control Change status byte (R9). -/
abbrev ccMarker : BitVec 4 := 0xB#4

/-- `MIDI_MAX`: the largest in-domain MIDI data value (R9). -/
abbrev midiMax : Nat := 127

/-- `DMX_CEIL`: the mapped value of any MIDI value above `MIDI_MAX` (R9). -/
abbrev dmxCeil : Nat := 254

/-- `GAIN_UNITY`: unity gain, also the gain ceiling (R9). -/
abbrev gainUnity : Nat := 1024

/-- `GAIN_SHIFT`: a division by 1024 is a right shift by this (R9). -/
abbrev gainShift : Nat := 10

/-- `DEADZONE`: a gain change of this size or less is absorbed (R9). -/
abbrev deadZone : Nat := 5

/-- The parameters the source leaves open (R10), fixed for a machine. `CFG_CH`, the third row of R10, is state. -/
structure Params where
  /-- `LCAP`: the capacity of each static-scene list. -/
  lcap : Nat
  /-- `RAW_MAX`: the full-scale value of `SETATT`'s raw operand. -/
  rawMax : Nat
  deriving DecidableEq, Repr

/-- The defaults R10 states. -/
def Params.default : Params := { lcap := 16, rawMax := 1023 }

/-- The domains R10 gives the parameters. -/
def Params.inDomain (p : Params) : Bool := 1 ≤ p.lcap && (1 ≤ p.rawMax && p.rawMax ≤ 65535)

end Sys2Proof
end

