-- ==== Sys2Proof/Syntax.lean ====
section
/-! DEFINITION. The operations of the core, one constructor per row of spec/opcode_table.json (00_scope R3,
30_encoding R76, R91), and the units in which they arrive at its interfaces. -/

namespace Sys2Proof

/-- One operation with its operands. Operand widths are those of 30_encoding R78 to R84. -/
inductive Instr where
  /-- `NOP` (R175). -/
  | nop
  /-- `BEGIN` (R174). -/
  | begin
  /-- `SETDMX valid, channel, value` (R78, R133). -/
  | setdmx (valid : Bool) (channel value : Byte)
  /-- `SETCC channel, value` (R79, R135). -/
  | setcc (channel value : Byte)
  /-- `SETGAIN gain` (R80, R137). -/
  | setgain (gain : Half)
  /-- `SETATT raw` (R80, R173). -/
  | setatt (raw : Half)
  /-- `SCLR` (R151). -/
  | sclr
  /-- `SPUSH colour, channel` (R81, R152). -/
  | spush (colour : BitVec 2) (channel : Byte)
  /-- `SRGB red, green, blue` (R81, R153). -/
  | srgb (red green blue : Byte)
  /-- `ACTS` (R156). -/
  | acts
  /-- `ACTD` (R158). -/
  | actd
  /-- `POLL` (R171). -/
  | poll
  /-- `RXBYTE b`: one received byte (R111). -/
  | rxbyte (b : Byte)
  /-- `RXBYTE.STATUS n`: the received byte `0xB0 + n` (R72, R112). -/
  | rxbyteStatus (n : MidiChan)
  /-- `CCFRAME n c v`: the three bytes of one frame (R70, with bits 15 and 7 free, R71). -/
  | ccframe (n : MidiChan) (c v : Byte)
  /-- `OUTEVENT c v`: the output event `(c, v)` (R83), made by `Emit` alone (R131). -/
  | outevent (c : Chan) (v : Byte)
  /-- `RESET ch` (R84, R200). -/
  | reset (ch : MidiChan)
  deriving DecidableEq, Repr

/-- One thing that arrives at the core's boundary: a unit of one of the formats of R91, or bytes that the
environment appends to the byte source (`SRC`, R89), which is no operation of the core. -/
inductive Event where
  /-- A command word on the command port (format `CMD32`, R54, R75). -/
  | cmd (w : Command)
  /-- A byte pushed to the parser, the script's `RX` (format `RX8`, R72, R121). -/
  | rx (b : Byte)
  /-- A whole frame, first byte in bits 23:16 (format `MIDI3`, R70). -/
  | frame (f : BitVec 24)
  /-- An output event as a unit, channel in bits 15:8 (format `OUT16`, R83). -/
  | outp (e : Half)
  /-- The reset input with its operand (format `RST4`, R84). -/
  | rst (ch : MidiChan)
  /-- The environment appends these bytes, oldest first, to `RXQ` (R52, R89). -/
  | src (bytes : List Byte)
  deriving DecidableEq, Repr

end Sys2Proof
end

