-- ==== Sys2Proof/WellFormed.lean ====
section
/-! DEFINITION. Which operations are in the decoder's canonical spelling. Every operand value of every operation is
legal (60_exceptions R180), so the one check is the spelling of a received byte: a byte whose high nibble is the
marker `0xB` is spelled `RXBYTE.STATUS` (30_encoding R72, R91). -/

namespace Sys2Proof

/-- The operation is spelled as the decoder spells it. The meaning of `RXBYTE` does not depend on this check: it
is defined for all 256 bytes. -/
def wellFormed : Instr → Bool
  | .nop => true
  | .begin => true
  | .setdmx _ _ _ => true
  | .setcc _ _ => true
  | .setgain _ => true
  | .setatt _ => true
  | .sclr => true
  | .spush _ _ => true
  | .srgb _ _ _ => true
  | .acts => true
  | .actd => true
  | .poll => true
  | .rxbyte b => b.extractLsb' 4 4 != ccMarker
  | .rxbyteStatus _ => true
  | .ccframe _ _ _ => true
  | .outevent _ _ => true
  | .reset _ => true

/-- `wellFormed` as a proposition. -/
abbrev WellFormed (i : Instr) : Prop := wellFormed i = true

end Sys2Proof
end

