-- ==== Sys2Proof/Decode.lean ====
section
/-! DEFINITION. The decoder, from 30_encoding R70 to R92, and after it the encoder from the same tables. -/

namespace Sys2Proof

/-- Why a unit is not an operation. -/
inductive DecodeError where
  /-- A 24-bit unit whose first byte lacks the marker `0xB`: no frame (R70). -/
  | noFrameMarker
  /-- A 16-bit unit with bit 15 set: no output event, whose channel is 0 to 127 (R83). -/
  | noOutputChannel
  /-- Bytes for the byte source: an act of the environment (R89). -/
  | environment
  deriving DecidableEq, Repr

/-- The byte has the Control Change marker `0xB` as its high nibble (R70, R112). -/
def hasMarker (b : Byte) : Bool := b.extractLsb' 4 4 == ccMarker

/-- R75, R92: `w[31:24]`. -/
def opcodeOf (w : Command) : Byte := w.extractLsb' 24 8

/-- R92: the operation of a command word: the opcode of R76 selects it, the fields of R77 to R81 are extracted, all
other payload bits are ignored (R87), and a reserved opcode is `NOP` (R86). -/
def decodeCommand (w : Command) : Instr :=
  match (opcodeOf w).toNat with
  | 0x00 => .nop
  | 0x01 => .begin
  | 0x10 => .setdmx (w.getLsbD 16) (w.extractLsb' 8 8) (w.extractLsb' 0 8)
  | 0x11 => .setcc (w.extractLsb' 8 8) (w.extractLsb' 0 8)
  | 0x20 => .setgain (w.extractLsb' 0 16)
  | 0x21 => .setatt (w.extractLsb' 0 16)
  | 0x30 => .sclr
  | 0x31 => .spush (w.extractLsb' 8 2) (w.extractLsb' 0 8)
  | 0x32 => .srgb (w.extractLsb' 16 8) (w.extractLsb' 8 8) (w.extractLsb' 0 8)
  | 0x40 => .acts
  | 0x41 => .actd
  | 0x50 => .poll
  | _ => .nop

/-- R72, R91: a received byte; one with the marker is spelled by the row `RXBYTE.STATUS`. -/
def decodeByte (b : Byte) : Instr :=
  if hasMarker b then .rxbyteStatus (b.extractLsb' 0 4) else .rxbyte b

/-- R70, R71: a frame needs the marker; bits 15 and 7 are free, as the parser leaves them. -/
def decodeFrame (f : BitVec 24) : Except DecodeError Instr :=
  if hasMarker (f.extractLsb' 16 8) then
    .ok (.ccframe (f.extractLsb' 16 4) (f.extractLsb' 8 8) (f.extractLsb' 0 8))
  else .error .noFrameMarker

/-- R83: an output event has bit 15 clear (log 18). -/
def decodeOutput (e : Half) : Except DecodeError Instr :=
  if e.getLsbD 15 then .error .noOutputChannel
  else .ok (.outevent (e.extractLsb' 8 7) (e.extractLsb' 0 8))

/-- The operation a unit stands for. Total; it depends on the unit alone (R92). -/
def decode : Event → Except DecodeError Instr
  | .cmd w => .ok (decodeCommand w)
  | .rx b => .ok (decodeByte b)
  | .frame f => decodeFrame f
  | .outp e => decodeOutput e
  | .rst ch => .ok (.reset ch)
  | .src _ => .error .environment

/-- The unit for a row of spec/opcode_table.json given as a number in that table's bit numbering (98_reader), by the
row's width: 32 `CMD32`, 24 `MIDI3`, 16 `OUT16`, 8 `RX8`, 4 `RST4`. `none` where there is no such format or the
number does not fit. -/
def eventOfTable (nbits w : Nat) : Option Event :=
  if w < 2 ^ nbits then
    match nbits with
    | 32 => some (.cmd (BitVec.ofNat 32 w))
    | 24 => some (.frame (BitVec.ofNat 24 w))
    | 16 => some (.outp (BitVec.ofNat 16 w))
    | 8 => some (.rx (BitVec.ofNat 8 w))
    | 4 => some (.rst (BitVec.ofNat 4 w))
    | _ => none
  else none

/-- The instruction the decoder reads from a table row's word of `nbits` bits (log 12). -/
def decodeTableWord (nbits w : Nat) : Option Instr :=
  match eventOfTable nbits w with
  | none => none
  | some e =>
    match decode e with
    | .ok i => some i
    | .error _ => none

/-- A command word from its opcode and its 24 payload bits (R75). -/
def commandWord (opcode : Byte) (payload : BitVec 24) : Command := opcode ++ payload

/-- The unit that carries an operation, every reserved bit zero (R77 to R84, R87). -/
def encode : Instr → Event
  | .nop => .cmd (commandWord 0x00#8 0#24)
  | .begin => .cmd (commandWord 0x01#8 0#24)
  | .setdmx valid channel value => .cmd (commandWord 0x10#8 (0#7 ++ BitVec.ofBool valid ++ channel ++ value))
  | .setcc channel value => .cmd (commandWord 0x11#8 (0#8 ++ channel ++ value))
  | .setgain gain => .cmd (commandWord 0x20#8 (0#8 ++ gain))
  | .setatt raw => .cmd (commandWord 0x21#8 (0#8 ++ raw))
  | .sclr => .cmd (commandWord 0x30#8 0#24)
  | .spush colour channel => .cmd (commandWord 0x31#8 (0#14 ++ colour ++ channel))
  | .srgb red green blue => .cmd (commandWord 0x32#8 (red ++ green ++ blue))
  | .acts => .cmd (commandWord 0x40#8 0#24)
  | .actd => .cmd (commandWord 0x41#8 0#24)
  | .poll => .cmd (commandWord 0x50#8 0#24)
  | .rxbyte b => .rx b
  | .rxbyteStatus n => .rx (ccMarker ++ n)
  | .ccframe n c v => .frame (ccMarker ++ n ++ c ++ v)
  | .outevent c v => .outp (0#1 ++ c ++ v)
  | .reset ch => .rst ch

end Sys2Proof
end

