-- ==== Sys2Proof/Machine/State.lean ====
section
/-! DEFINITION. The state of the core (10_state R20), its environment and its observation, as plain data; and the
state after reset (R40). -/

namespace Sys2Proof.Machine

/-- The parser states of R25, in the order of their numbers 0, 1, 2 (log 22). -/
inductive Pst where
  /-- `WAIT_STATUS`: no frame in progress. -/
  | waitStatus
  /-- `HAVE_STATUS`: a matching status byte was accepted. -/
  | haveStatus
  /-- `HAVE_CHANNEL`: the controller number is in `CTL`. -/
  | haveChannel
  deriving DecidableEq, Repr

/-- The scene selector of R31: 0 is `DYNAMIC`, 1 is `STATIC` (log 22). -/
inductive Scene where
  | dynamic
  | static
  deriving DecidableEq, Repr

/-- The colour index space of R34: 0 red, 1 green, 2 blue. -/
inductive Colour where
  | red
  | green
  | blue
  deriving DecidableEq, Repr

/-- One thing for each colour index. -/
structure PerColour (α : Type) where
  red : α
  green : α
  blue : α
  deriving DecidableEq, Repr

/-- An output event `(channel, value)` (R53, R83): both 8 bits. -/
structure OutEvent where
  channel : Byte
  value : Byte
  deriving DecidableEq, Repr

/-- The state. The first ten fields are the eleven items of R20 (`LEN` is the length of `list`, log 7); the
others are the core's boundary and the model's own (logs 1, 3, 4, 8, 15). -/
structure State where
  /-- `DYN`: the raw dynamic value of each channel (R21). -/
  dyn : ChanFile
  /-- `OUT`: the value last emitted on each channel (R22). -/
  out : ChanFile
  /-- `PST` (R25). -/
  pst : Pst
  /-- `CTL`: the controller-number latch (R26). -/
  ctl : Byte
  /-- `CFG_CH`: the MIDI channel of interest (R28). -/
  cfgCh : MidiChan
  /-- `GAIN_REF`: the last applied gain (R29). -/
  gainRef : Gain
  /-- `GAIN_TRK`: the last accepted gain (R30). -/
  gainTrk : Gain
  /-- `SCENE` (R31). -/
  scene : Scene
  /-- `COLOR` (R32). -/
  color : PerColour Byte
  /-- `LIST` and `LEN`: the meaningful entries of each colour's list, in push order (R33). -/
  list : PerColour (List Chan)
  /-- `RXQ`: the bytes waiting in the byte source, oldest first (R52). -/
  rxq : List Byte
  /-- The output events delivered so far, oldest first (R14). -/
  trace : List OutEvent
  /-- The events issued and not yet taken, oldest first (R14). -/
  input : List Event
  /-- The machine's parameters (R10). -/
  params : Params
  /-- A `RESET` has happened since power-up (R201). -/
  live : Bool
  deriving DecidableEq, Repr

/-- The core raises no exception and no operation's outcome is a fault (R180): there is no reason to list. -/
inductive Fault where
  deriving DecidableEq, Repr

/-- Why a step gives no next state. -/
inductive Refusal where
  /-- Raised by an arm of `exec` for an operation with no meaning yet (no arm does). Safe. -/
  | notModelled (mnemonic : String)
  /-- Raised by every operation but `RESET` before the first `RESET` (R196, R201, U5). Safe: the spec gives it no
  move. -/
  | beforeReset
  /-- Raised by `step` for a unit that is no operation (a 24-bit unit without the marker, a 16-bit unit with bit 15
  set). Safe: no such unit exists on the hardware. -/
  | undecodable (e : DecodeError)
  /-- Raised by `step` for a unit of the format `OUT16`: an output of the core, which nothing can issue to it (R3: no
  other operation exists; log 9). Safe: the hardware has no such step. -/
  | outputOnly
  deriving DecidableEq, Repr

/-- The state right after reset (R40, R200; log 6): `CFG_CH` 0 (log 5), the default parameters (log 4), nothing waiting in
the byte source, nothing issued, nothing emitted (logs 1, 3, 15). -/
def State.reset : State where
  dyn := Vector.replicate 128 0#8
  out := Vector.replicate 128 0#8
  pst := .waitStatus
  ctl := 0#8
  cfgCh := 0#4
  gainRef := 1024#11
  gainTrk := 1024#11
  scene := .dynamic
  color := { red := 0#8, green := 0#8, blue := 0#8 }
  list := { red := [], green := [], blue := [] }
  rxq := []
  trace := []
  input := []
  params := Params.default
  live := true

end Sys2Proof.Machine
end

