-- ==== Sys2Proof/Machine/Operands.lean ====
section
/-! DEFINITION. Operand forms and the range policies applied to operands (30_encoding R85, 40 R100 to R103,
42 R132): clamps, the CC-to-DMX mapper, the attenuation map, colour and channel indices. -/

namespace Sys2Proof.Machine

/-- A DmxValue (R100). A value, never state. -/
structure DmxValue where
  channel : Byte
  value : Byte
  valid : Bool
  deriving DecidableEq, Repr

/-- `DV(c, v)`: the explicit constructor, always valid (R100). -/
def dv (channel value : Byte) : DmxValue := { channel, value, valid := true }

/-- `DV_INVALID`: the default-constructed DmxValue (R100). -/
def dvInvalid : DmxValue := { channel := 0#8, value := 0#8, valid := false }

/-- DmxValue equality: channel and value match, `valid` takes no part (R102). -/
def dvEqual (a b : DmxValue) : Bool := a.channel == b.channel && a.value == b.value

/-- `channel[6:0]`: the register-file index of an in-range interface index (R11, R152). -/
def chanOf (channel : Byte) : Chan := channel.extractLsb' 0 7

/-- The interface form of a register-file index (R53, R83: bit 7 is 0). -/
def byteOfChan (c : Chan) : Byte := c.setWidth 8

/-- The index selects no slot of a register file (R51): it is above 127. -/
def outOfRange (channel : Byte) : Bool := chMax < channel.toNat

/-- The mapper's channel: ceiling clamp to 127 (R103). -/
def mapChannel (c : Byte) : Byte := BitVec.ofNat 8 (min c.toNat chMax)

/-- The mapper's value: doubled up to 127, the fixed ceiling 254 above (R103). -/
def mapValue (v : Byte) : Byte := BitVec.ofNat 8 (if v.toNat ≤ midiMax then v.toNat * 2 else dmxCeil)

/-- `Map(c, v)` (R103). -/
def mapCc (c v : Byte) : DmxValue := dv (mapChannel c) (mapValue v)

/-- The gain operand saturated at unity (R137, R141). -/
def clampGain (gain : Half) : Gain := BitVec.ofNat 11 (min gain.toNat gainUnity)

/-- `min(1024, (raw * 1024) / RAW_MAX)`, exact product and floor division (R173). -/
def attenuation (rawMax : Nat) (raw : Half) : Half := BitVec.ofNat 16 (min gainUnity (raw.toNat * gainUnity / rawMax))

/-- The colour a 2-bit operand names; 3 is reserved (R81, R152). -/
def colourOf (k : BitVec 2) : Option Colour :=
  match k.toNat with
  | 0 => some .red
  | 1 => some .green
  | 2 => some .blue
  | _ => none

/-- The entry of a colour. -/
def getColour {α : Type} (p : PerColour α) : Colour → α
  | .red => p.red
  | .green => p.green
  | .blue => p.blue

/-- The table with one colour's entry replaced. -/
def setColour {α : Type} (p : PerColour α) (k : Colour) (a : α) : PerColour α :=
  match k with
  | .red => { p with red := a }
  | .green => { p with green := a }
  | .blue => { p with blue := a }

/-- `[R, G, B]`, the order of every colour loop (R13). -/
def colours : List Colour := [.red, .green, .blue]

/-- `0..127` in ascending order, the order of every channel sweep (R13). -/
def channels : List Chan := (List.range nch).map (BitVec.ofNat 7)

end Sys2Proof.Machine
end

