-- ==== Sys2Proof/Machine/Flags.lean ====
section
/-! DEFINITION. The transient one-bit conditions of 10_state R27 (none is stored) and the arithmetic they and the
gain stage use (42 R130, R132). -/

namespace Sys2Proof.Machine

/-- `valid(d)` (R101). -/
def dvValid (d : DmxValue) : Bool := d.valid

/-- `changed` inside `Emit(c, v)`: the value shown differs from the new one (R131). -/
def changed (shown new : Byte) : Bool := shown != new

/-- `abs_diff(a, b)`: the larger minus the smaller, without wrap (R13, R132). -/
def absDiff (a b : Nat) : Nat := if b ≤ a then a - b else b - a

/-- `apply`, the dead-zone comparator: the offered gain is more than 5 away from the last applied one (R137, R138). -/
def applies (offered applied : Gain) : Bool := deadZone < absDiff offered.toNat applied.toNat

/-- The one byte that starts a frame: marker `0xB`, and the low nibble is `CFG_CH` (R112). -/
def matchesStatus (b : Byte) (cfgCh : MidiChan) : Bool := hasMarker b && b.extractLsb' 0 4 == cfgCh

/-- `Scale(v, g) = (v * g) >> 10`, exact product (R130). For `g` up to 1024 the result fits 8 bits; no other gain is
ever held (R37 INV1; log 19). -/
def scale (v : Byte) (g : Gain) : Byte := BitVec.ofNat 8 ((v.toNat * g.toNat) >>> gainShift)

end Sys2Proof.Machine
end

