-- ==== Sys2Proof/Machine/Ops.lean ====
section
/-! DEFINITION. The named operations over the register files and the registers, which the operations of the core are
composed of: slots, `Emit` (42 R131), the channel write and the gain stage (R133, R135, R137), the static-scene lists
and the scene switch (43 R152, R156, R158), the parser (41 R111), the poll loop (44 R171), the reset event (70 R200).
The core raises no exception (60 R180, R184), so there is none to take and none to return from. -/

namespace Sys2Proof.Machine

/-- Read of slot `c` of a register file (R13, R59). -/
def readSlot (f : ChanFile) (c : Chan) : Byte := f[c.toNat]'(c.isLt)

/-- Write of slot `c` of a register file (R13, R59). -/
def writeSlot (f : ChanFile) (c : Chan) (v : Byte) : ChanFile := f.set c.toNat v c.isLt

/-- `DYN[c]`. -/
def dynAt (s : State) (c : Chan) : Byte := readSlot s.dyn c

/-- `OUT[c]`. -/
def outAt (s : State) (c : Chan) : Byte := readSlot s.out c

/-- `COLOR[k]`. -/
def colorAt (s : State) (k : Colour) : Byte := getColour s.color k

/-- The meaningful entries of `LIST[k]`, in push order. -/
def listAt (s : State) (k : Colour) : List Chan := getColour s.list k

/-- `LEN[k]`. -/
def lenAt (s : State) (k : Colour) : Nat := (listAt s k).length

/-- `DYN[c] <- v`. -/
def setDynAt (c : Chan) (v : Byte) (s : State) : State := { s with dyn := writeSlot s.dyn c v }

/-- `OUT[c] <- v`. -/
def setOutAt (c : Chan) (v : Byte) (s : State) : State := { s with out := writeSlot s.out c v }

/-- `out(c, v)`: the event is delivered to the sink (R13, R53; log 14). -/
def deliver (c : Chan) (v : Byte) (s : State) : State :=
  { s with trace := s.trace ++ [{ channel := byteOfChan c, value := v }] }

/-- `Emit(c, v)`: the change detector, the only path to the output and, `RESET` apart, the only writer of `OUT`
(R131). -/
def emit (c : Chan) (v : Byte) (s : State) : State :=
  if changed (outAt s c) v then deliver c v (setOutAt c v s) else s

/-- `Emit(c, Scale(DYN[c], GAIN_REF))`: the dynamic scene's value of one channel is shown (R137, R158). -/
def emitDynamic (s : State) (c : Chan) : State := emit c (scale (dynAt s c) s.gainRef) s

/-- The 128-channel sweep that shows the dynamic scene (R137, R158). -/
def showDynamic (s : State) : State := channels.foldl emitDynamic s

/-- The sweep that blacks out every lit channel (R156, step 1). -/
def blackoutAll (s : State) : State := channels.foldl (fun t c => emit c 0#8 t) s

/-- One colour's list, each entry set to `v` (R156 step 3, R158 step 1). -/
def emitList (v : Byte) (cs : List Chan) (s : State) : State := cs.foldl (fun t c => emit c v t) s

/-- The static scene is lit: colour by colour, each in list order (R156, step 3). -/
def showStatic (s : State) : State := colours.foldl (fun t k => emitList (colorAt t k) (listAt t k) t) s

/-- The static scene is blacked out in the order it was lit (R158, step 1). -/
def blackoutStatic (s : State) : State := colours.foldl (fun t k => emitList 0#8 (listAt t k) t) s

/-- `SETDMX` of a DmxValue: invalid or out of range is discarded; the raw value is always stored; it is shown only in
the dynamic scene (R133). -/
def setDmxValue (d : DmxValue) (s : State) : State :=
  if !dvValid d then s
  else if outOfRange d.channel then s
  else
    let c := chanOf d.channel
    let t := setDynAt c d.value s
    match t.scene with
    | .dynamic => emit c (scale d.value t.gainRef) t
    | .static => t

/-- `SETCC` of a pair: `Map`, then `SETDMX` (R135). -/
def setCcValue (channel value : Byte) (s : State) : State := setDmxValue (mapCc channel value) s

/-- `SETGAIN`: clamp, tracking write, dead-zone test, and if it applies the new reference and, in the dynamic scene,
the sweep (R137, R140, R183 (d)). -/
def setGainTo (gain : Half) (s : State) : State :=
  let g := clampGain gain
  let t := { s with gainTrk := g }
  if applies g t.gainRef then
    let u := { t with gainRef := g }
    match u.scene with
    | .dynamic => showDynamic u
    | .static => u
  else t

/-- `SPUSH`: colour test, range test, capacity test, then append (R152, R183 (c)). -/
def pushChannel (k : BitVec 2) (channel : Byte) (s : State) : State :=
  match colourOf k with
  | none => s
  | some colour =>
    if outOfRange channel then s
    else if lenAt s colour = s.params.lcap then s
    else { s with list := setColour s.list colour (listAt s colour ++ [chanOf channel]) }

/-- `ACTS` (R156). -/
def activateStatic (s : State) : State :=
  match s.scene with
  | .static => s
  | .dynamic => showStatic { blackoutAll s with scene := .static }

/-- `ACTD` (R158). -/
def activateDynamic (s : State) : State :=
  match s.scene with
  | .dynamic => s
  | .static => showDynamic { blackoutStatic s with scene := .dynamic }

/-- `RXBYTE b` (R111 to R114): the state after the byte and the transient `frame_complete` (R27). -/
def receiveByte (b : Byte) (s : State) : State × Bool :=
  match s.pst with
  | .waitStatus => (if matchesStatus b s.cfgCh then { s with pst := .haveStatus } else s, false)
  | .haveStatus => ({ s with ctl := b, pst := .haveChannel }, false)
  | .haveChannel => (setCcValue s.ctl b { s with pst := .waitStatus }, true)

/-- The poll loop over the waiting bytes (R171): each is taken from `RXQ` and received, until a frame completes or
none is left. -/
def pollLoop : List Byte → State → State
  | [], s => s
  | b :: rest, s =>
    match receiveByte b { s with rxq := rest } with
    | (t, true) => t
    | (t, false) => pollLoop rest t

/-- The environment appends bytes to the byte source (R52, R89). -/
def appendBytes (bytes : List Byte) (s : State) : State := { s with rxq := s.rxq ++ bytes }

/-- The reset event (R200): every register at R40's value, `CFG_CH` from the operand, no output event. The byte
source, the trace and the events still to come are not the core's. -/
def resetTo (ch : MidiChan) (s : State) : State :=
  { s with
    dyn := Vector.replicate 128 0#8
    out := Vector.replicate 128 0#8
    pst := .waitStatus
    ctl := 0#8
    cfgCh := ch
    gainRef := 1024#11
    gainTrk := 1024#11
    scene := .dynamic
    color := { red := 0#8, green := 0#8, blue := 0#8 }
    list := { red := [], green := [], blue := [] }
    live := true }

/-- An operation's completion: it may be issued only after a `RESET` (R196, R201, U5). -/
def whenLive (s t : State) : Host.Outcome State Fault Refusal :=
  if s.live then .next t else .refused .beforeReset

end Sys2Proof.Machine
end

