-- ==== Sys2Proof/Machine/Bridge.lean ====
section
/-! DEFINITION. The bridge's own operations (44_bridge) and the reset event (70_reset_and_hazards). -/

namespace Sys2Proof.Machine

/-- `NOP` (R175). -/
def execNop (s : State) : Host.Outcome State Fault Refusal :=
  whenLive s s

/-- `BEGIN`: opening the byte source is the environment's; the core does not change (R174, log 21). -/
def execBegin (s : State) : Host.Outcome State Fault Refusal :=
  whenLive s s

/-- `POLL` (R171). -/
def execPoll (s : State) : Host.Outcome State Fault Refusal :=
  whenLive s (pollLoop s.rxq s)

/-- `RESET ch` (R200): the one operation that may be issued before a `RESET` (R196). -/
def execReset (ch : MidiChan) (s : State) : Host.Outcome State Fault Refusal :=
  .next (resetTo ch s)

end Sys2Proof.Machine
end

