-- ==== Sys2Proof/Machine/Channel.lean ====
section
/-! DEFINITION. The channel writes (42_store_and_gain). -/

namespace Sys2Proof.Machine

/-- `SETDMX valid, channel, value` (R133). -/
def execSetdmx (valid : Bool) (channel value : Byte) (s : State) : Host.Outcome State Fault Refusal :=
  whenLive s (setDmxValue { channel, value, valid } s)

/-- `SETCC channel, value` (R135). -/
def execSetcc (channel value : Byte) (s : State) : Host.Outcome State Fault Refusal :=
  whenLive s (setCcValue channel value s)

end Sys2Proof.Machine
end

