-- ==== Sys2Proof/Machine/Gain.lean ====
section
/-! DEFINITION. The gain operations (42_store_and_gain, 44_bridge). -/

namespace Sys2Proof.Machine

/-- `SETGAIN gain` (R137). -/
def execSetgain (gain : Half) (s : State) : Host.Outcome State Fault Refusal :=
  whenLive s (setGainTo gain s)

/-- `SETATT raw` (R173). -/
def execSetatt (raw : Half) (s : State) : Host.Outcome State Fault Refusal :=
  whenLive s (setGainTo (attenuation s.params.rawMax raw) s)

end Sys2Proof.Machine
end

