-- ==== Sys2Proof/Machine/Parser.lean ====
section
/-! DEFINITION. The received bytes (41_midi_parser), a whole frame of them, and the output event. -/

namespace Sys2Proof.Machine

/-- `RXBYTE b` (R111). -/
def execRxbyte (b : Byte) (s : State) : Host.Outcome State Fault Refusal :=
  whenLive s (receiveByte b s).1

/-- `RXBYTE.STATUS n`: the byte `0xB0 + n` is received (R112). -/
def execRxbyteStatus (n : MidiChan) (s : State) : Host.Outcome State Fault Refusal :=
  whenLive s (receiveByte (ccMarker ++ n) s).1

/-- `CCFRAME n c v`: the three bytes of the frame are received in order (R70, R90, log 10). -/
def execCcframe (n : MidiChan) (c v : Byte) (s : State) : Host.Outcome State Fault Refusal :=
  whenLive s (receiveByte v (receiveByte c (receiveByte (ccMarker ++ n) s).1).1).1

/-- `OUTEVENT c v`: what produces the output event `(c, v)`, that is `Emit(c, v)` (R83, R131). The core does it inside
its operations; `step` takes no such unit from outside (R3, log 9). -/
def execOutevent (c : Chan) (v : Byte) (s : State) : Host.Outcome State Fault Refusal :=
  whenLive s (emit c v s)

end Sys2Proof.Machine
end

