-- ==== Sys2Proof/Machine/Scenes.lean ====
section
/-! DEFINITION. The static-scene configuration and the scene switch (43_scene). -/

namespace Sys2Proof.Machine

/-- `SCLR`: the three lists are emptied (R151). -/
def execSclr (s : State) : Host.Outcome State Fault Refusal :=
  whenLive s { s with list := { red := [], green := [], blue := [] } }

/-- `SPUSH colour, channel` (R152). -/
def execSpush (colour : BitVec 2) (channel : Byte) (s : State) : Host.Outcome State Fault Refusal :=
  whenLive s (pushChannel colour channel s)

/-- `SRGB red, green, blue` (R153). -/
def execSrgb (red green blue : Byte) (s : State) : Host.Outcome State Fault Refusal :=
  whenLive s { s with color := { red, green, blue } }

/-- `ACTS` (R156). -/
def execActs (s : State) : Host.Outcome State Fault Refusal :=
  whenLive s (activateStatic s)

/-- `ACTD` (R158). -/
def execActd (s : State) : Host.Outcome State Fault Refusal :=
  whenLive s (activateDynamic s)

end Sys2Proof.Machine
end

