-- ==== Sys2Proof/Machine/Dispatch.lean ====
section
/-! DEFINITION. The one dispatch: each operation to its meaning. -/

namespace Sys2Proof.Machine

/-- What an operation does in a state. -/
def exec (i : Instr) (s : State) : Host.Outcome State Fault Refusal :=
  match i with
  | .nop => Sys2Proof.Machine.execNop s
  | .begin => Sys2Proof.Machine.execBegin s
  | .setdmx valid channel value => Sys2Proof.Machine.execSetdmx valid channel value s
  | .setcc channel value => Sys2Proof.Machine.execSetcc channel value s
  | .setgain gain => Sys2Proof.Machine.execSetgain gain s
  | .setatt raw => Sys2Proof.Machine.execSetatt raw s
  | .sclr => Sys2Proof.Machine.execSclr s
  | .spush colour channel => Sys2Proof.Machine.execSpush colour channel s
  | .srgb red green blue => Sys2Proof.Machine.execSrgb red green blue s
  | .acts => Sys2Proof.Machine.execActs s
  | .actd => Sys2Proof.Machine.execActd s
  | .poll => Sys2Proof.Machine.execPoll s
  | .rxbyte b => Sys2Proof.Machine.execRxbyte b s
  | .rxbyteStatus n => Sys2Proof.Machine.execRxbyteStatus n s
  | .ccframe n c v => Sys2Proof.Machine.execCcframe n c v s
  | .outevent c v => Sys2Proof.Machine.execOutevent c v s
  | .reset ch => Sys2Proof.Machine.execReset ch s

end Sys2Proof.Machine
end

