-- ==== Sys2Proof/Machine/Fetch.lean ====
section
/-! DEFINITION. How the next event reaches the core (00_scope R14, 20_memory R52, R54, R63): the events issued are
taken one at a time, in order. -/

namespace Sys2Proof.Machine

/-- The event is the next one the core will take. -/
def pushEvent (e : Event) (s : State) : State := { s with input := e :: s.input }

/-- A table row's word is the next event; a width no format has, or a number that does not fit it, places nothing. -/
def pushTableWord (s : State) (nbits w : Nat) : State :=
  match eventOfTable nbits w with
  | some e => pushEvent e s
  | none => s

/-- The row is an operation that an event can ask for (R3). `CCFRAME` and `RXBYTE.STATUS` are received bytes (R90,
R91); the output event alone is none. -/
def isOperation : Instr → Bool
  | .nop => true
  | .begin => true
  | .setdmx _ _ _ => true
  | .setcc _ _ => true
  | .setgain _ => true
  | .setatt _ => true
  | .sclr => true
  | .spush _ _ => true
  | .srgb _ _ _ => true
  | .acts => true
  | .actd => true
  | .poll => true
  | .rxbyte _ => true
  | .rxbyteStatus _ => true
  | .ccframe _ _ _ => true
  | .outevent _ _ => false
  | .reset _ => true

/-- The event, taken from the list of those issued, takes effect: bytes for the byte source are appended (R89), a
unit that is an operation is performed (R14), and no other is (R3). -/
def takeEvent (e : Event) (s : State) : Host.Outcome State Fault Refusal :=
  match e with
  | .src bytes => .next (appendBytes bytes s)
  | unit =>
    match decode unit with
    | .ok i => if isOperation i then exec i s else .refused .outputOnly
    | .error err => .refused (.undecodable err)

/-- The next event, if any, is removed and takes effect; with none issued the core waits (R204, log 1). -/
def advance (s : State) : Host.Outcome State Fault Refusal :=
  match s.input with
  | [] => .next s
  | e :: rest => takeEvent e { s with input := rest }

end Sys2Proof.Machine
end

