-- ==== Sys2Proof/Machine/Step.lean ====
section
/-! DEFINITION. One step of the machine, and where its next instruction is placed. -/

namespace Sys2Proof.Machine

/-- One step: the next event takes effect (R14). -/
def step (s : State) : Host.Outcome State Fault Refusal := advance s

/-- `s` with a table row's word of `nbits` bits as the next event the core will take (logs 12, 13; one of the
format `OUT16` it refuses, log 9). -/
def State.withFetchWord (s : State) (nbits w : Nat) : State := pushTableWord s nbits w

end Sys2Proof.Machine
end

