-- ==== Sys2Proof/Machine/Script.lean ====
section
/-! DEFINITION. The pseudo-operations of 30_encoding R90, each the list of events it expands to. None has an
encoding of its own. -/

namespace Sys2Proof.Machine

/-- `FRAME n c v`: three received bytes (R90). -/
def frameEvents (n : MidiChan) (c v : Byte) : List Event := [.rx (ccMarker ++ n), .rx c, .rx v]

/-- The `SPUSH`es of one colour, in list order (R90). -/
def pushEvents (colour : BitVec 2) (cs : List Byte) : List Event := cs.map fun c => encode (.spush colour c)

/-- `SETSCENE`: `SCLR`, the `SPUSH`es in red, green, blue order, `SRGB` (R90, R154). -/
def sceneEvents (r g b : List Byte) (red green blue : Byte) : List Event :=
  encode .sclr :: (pushEvents 0#2 r ++ pushEvents 1#2 g ++ pushEvents 2#2 b ++ [encode (.srgb red green blue)])

/-- `TICK`: the bytes newly arrived, then one poll (R90). -/
def tickEvents (bytes : List Byte) : List Event := [.src bytes, encode .poll]

end Sys2Proof.Machine
end

