-- ==== Sys2Proof/Safety.lean ====
section
/-! DEFINITION. The words the claims are made in: the invariants of 10_state R37, what a list of output events says
about `OUT` (R22, R131), and the closed forms of the sweeps (R137, R156, R158). -/

namespace Sys2Proof.Machine

/-- INV1 (R37): both gains are at most 1024. -/
def GainsBounded (s : State) : Prop := s.gainRef.toNat ≤ gainUnity ∧ s.gainTrk.toNat ≤ gainUnity

/-- INV3 (R37): no list is longer than `LCAP`. That every entry is at most 127 is its type. -/
def ListsBounded (s : State) : Prop := ∀ k, lenAt s k ≤ s.params.lcap

/-- INV4 (R37): in the dynamic scene every channel shows its scaled dynamic value. -/
def DynamicShown (s : State) : Prop := s.scene = .dynamic → ∀ c, outAt s c = scale (dynAt s c) s.gainRef

/-- The first half of INV5 (R37): every delivered event names a channel of the core. -/
def EventsInRange (s : State) : Prop := ∀ e ∈ s.trace, e.channel.toNat ≤ chMax

/-- What every step keeps (R37), from the first `RESET` on. -/
structure Inv (s : State) : Prop where
  events : EventsInRange s
  gains : s.live = true → GainsBounded s
  lists : s.live = true → ListsBounded s
  shown : s.live = true → DynamicShown s

/-- The file after the events: each names a channel and its new value (R22). -/
def applyEvents (shown : ChanFile) (es : List OutEvent) : ChanFile :=
  es.foldl (fun f e => writeSlot f (chanOf e.channel) e.value) shown

/-- Each event, in order, names a channel of the core and a value that differs from the one shown just before it
(R37 INV5, R131). -/
def EachChanges : ChanFile → List OutEvent → Prop
  | _, [] => True
  | shown, e :: es =>
    e.channel.toNat ≤ chMax ∧ readSlot shown (chanOf e.channel) ≠ e.value ∧
      EachChanges (writeSlot shown (chanOf e.channel) e.value) es

/-- The events of one ascending sweep that sets every channel `c` to `f c`: one per channel that shows another
value (R137). -/
def sweepEvents (f : Chan → Byte) (shown : ChanFile) : List OutEvent :=
  (channels.filter fun c => readSlot shown c != f c).map fun c => { channel := byteOfChan c, value := f c }

/-- The events of a list of `(channel, value)` writes, in order, from a file that shows `shown`. -/
def planEvents : ChanFile → List (Chan × Byte) → List OutEvent
  | _, [] => []
  | shown, (c, v) :: rest =>
    if readSlot shown c = v then planEvents shown rest
    else { channel := byteOfChan c, value := v } :: planEvents (writeSlot shown c v) rest

/-- The writes of the three lists in red, green, blue and list order, each entry of colour `k` set to `value k`
(R156, R158). -/
def staticPlan (s : State) (value : Colour → Byte) : List (Chan × Byte) :=
  colours.flatMap fun k => (listAt s k).map fun c => (c, value k)

/-- The value of a channel in the static scene: the last colour that lists it, else 0 (R157 (g)). -/
def staticValue (s : State) (c : Chan) : Byte :=
  if c ∈ listAt s .blue then colorAt s .blue
  else if c ∈ listAt s .green then colorAt s .green
  else if c ∈ listAt s .red then colorAt s .red
  else 0#8

/-- Bytes received one after another, and how many frames they complete (R111, R121). -/
def feed : List Byte → State → State × Nat
  | [], s => (s, 0)
  | b :: bs, s =>
    let r := receiveByte b s
    let q := feed bs r.1
    (q.1, q.2 + if r.2 then 1 else 0)

/-- What a list of bytes leaves in a colour's list: the indices above 127 and those beyond the capacity are not
stored (R152, R154). -/
def loadedList (lcap : Nat) (cs : List Byte) : List Chan :=
  ((cs.filter fun c => c.toNat ≤ chMax).map chanOf).take lcap

/-- The most output events an operation can produce (R219; `SETATT` as `SETGAIN`, R173, log 24). -/
def eventBound (p : Params) : Instr → Nat
  | .setdmx _ _ _ => 1
  | .setcc _ _ => 1
  | .rxbyte _ => 1
  | .rxbyteStatus _ => 1
  | .ccframe _ _ _ => 1
  | .poll => 1
  | .outevent _ _ => 1
  | .setgain _ => 128
  | .setatt _ => 128
  | .acts => 128 + 3 * p.lcap
  | .actd => 3 * p.lcap + 128
  | .nop => 0
  | .begin => 0
  | .sclr => 0
  | .spush _ _ => 0
  | .srgb _ _ _ => 0
  | .reset _ => 0

/-- Repeating the operation at once changes nothing (R60): not so for those that append to a list, advance the
parser or read the byte source. -/
def isRepeatable : Instr → Bool
  | .nop => true
  | .begin => true
  | .setdmx _ _ _ => true
  | .setcc _ _ => true
  | .setgain _ => true
  | .setatt _ => true
  | .sclr => true
  | .spush _ _ => false
  | .srgb _ _ _ => true
  | .acts => true
  | .actd => true
  | .poll => false
  | .rxbyte _ => false
  | .rxbyteStatus _ => false
  | .ccframe _ _ _ => false
  | .outevent _ _ => true
  | .reset _ => true

/-- The operation takes received bytes (R25, R26: the parser's writers). -/
def receives : Instr → Bool
  | .nop => false
  | .begin => false
  | .setdmx _ _ _ => false
  | .setcc _ _ => false
  | .setgain _ => false
  | .setatt _ => false
  | .sclr => false
  | .spush _ _ => false
  | .srgb _ _ _ => false
  | .acts => false
  | .actd => false
  | .poll => true
  | .rxbyte _ => true
  | .rxbyteStatus _ => true
  | .ccframe _ _ _ => true
  | .outevent _ _ => false
  | .reset _ => false

/-- The operation is the reset event. -/
def isReset : Instr → Bool
  | .nop => false
  | .begin => false
  | .setdmx _ _ _ => false
  | .setcc _ _ => false
  | .setgain _ => false
  | .setatt _ => false
  | .sclr => false
  | .spush _ _ => false
  | .srgb _ _ _ => false
  | .acts => false
  | .actd => false
  | .poll => false
  | .rxbyte _ => false
  | .rxbyteStatus _ => false
  | .ccframe _ _ _ => false
  | .outevent _ _ => false
  | .reset _ => true

/-- The operation is a scene switch (R31: the writers of `SCENE`). -/
def isSwitch : Instr → Bool
  | .nop => false
  | .begin => false
  | .setdmx _ _ _ => false
  | .setcc _ _ => false
  | .setgain _ => false
  | .setatt _ => false
  | .sclr => false
  | .spush _ _ => false
  | .srgb _ _ _ => false
  | .acts => true
  | .actd => true
  | .poll => false
  | .rxbyte _ => false
  | .rxbyteStatus _ => false
  | .ccframe _ _ _ => false
  | .outevent _ _ => false
  | .reset _ => false

/-- The operation is a gain write (R29, R30: the writers of the gains). -/
def isGainWrite : Instr → Bool
  | .nop => false
  | .begin => false
  | .setdmx _ _ _ => false
  | .setcc _ _ => false
  | .setgain _ => true
  | .setatt _ => true
  | .sclr => false
  | .spush _ _ => false
  | .srgb _ _ _ => false
  | .acts => false
  | .actd => false
  | .poll => false
  | .rxbyte _ => false
  | .rxbyteStatus _ => false
  | .ccframe _ _ _ => false
  | .outevent _ _ => false
  | .reset _ => false

/-- The operation is a channel write command (R21: with the received bytes, the writers of `DYN`). -/
def isChannelWrite : Instr → Bool
  | .nop => false
  | .begin => false
  | .setdmx _ _ _ => true
  | .setcc _ _ => true
  | .setgain _ => false
  | .setatt _ => false
  | .sclr => false
  | .spush _ _ => false
  | .srgb _ _ _ => false
  | .acts => false
  | .actd => false
  | .poll => false
  | .rxbyte _ => false
  | .rxbyteStatus _ => false
  | .ccframe _ _ _ => false
  | .outevent _ _ => false
  | .reset _ => false

/-- The operation writes the lists (R33). -/
def isListWrite : Instr → Bool
  | .nop => false
  | .begin => false
  | .setdmx _ _ _ => false
  | .setcc _ _ => false
  | .setgain _ => false
  | .setatt _ => false
  | .sclr => true
  | .spush _ _ => true
  | .srgb _ _ _ => false
  | .acts => false
  | .actd => false
  | .poll => false
  | .rxbyte _ => false
  | .rxbyteStatus _ => false
  | .ccframe _ _ _ => false
  | .outevent _ _ => false
  | .reset _ => false

/-- The operation writes `COLOR` (R32). -/
def isColourWrite : Instr → Bool
  | .nop => false
  | .begin => false
  | .setdmx _ _ _ => false
  | .setcc _ _ => false
  | .setgain _ => false
  | .setatt _ => false
  | .sclr => false
  | .spush _ _ => false
  | .srgb _ _ _ => true
  | .acts => false
  | .actd => false
  | .poll => false
  | .rxbyte _ => false
  | .rxbyteStatus _ => false
  | .ccframe _ _ _ => false
  | .outevent _ _ => false
  | .reset _ => false

/-- The parser's registers are unchanged. -/
def ParserSame (s t : State) : Prop := t.pst = s.pst ∧ t.ctl = s.ctl ∧ t.cfgCh = s.cfgCh

/-- The gain registers are unchanged. -/
def GainsSame (s t : State) : Prop := t.gainRef = s.gainRef ∧ t.gainTrk = s.gainTrk

/-- The static configuration is unchanged. -/
def StaticSame (s t : State) : Prop := (∀ k, colorAt t k = colorAt s k) ∧ ∀ k, listAt t k = listAt s k

/-- What lies beside the core's registers is unchanged: the events still to come, the parameters, the life flag. -/
def BesideSame (s t : State) : Prop := t.input = s.input ∧ t.params = s.params ∧ t.live = s.live

/-- Nothing was shown: every channel shows what it showed, and no event was delivered. -/
def Silent (s t : State) : Prop := (∀ c, outAt t c = outAt s c) ∧ t.trace = s.trace

/-- The payload bits an opcode names (R77 to R81); the others are reserved (R87). -/
def namedPayload (opcode : Nat) : BitVec 32 :=
  match opcode with
  | 0x10 => 0x0001FFFF#32
  | 0x11 => 0x0000FFFF#32
  | 0x20 => 0x0000FFFF#32
  | 0x21 => 0x0000FFFF#32
  | 0x31 => 0x000003FF#32
  | 0x32 => 0x00FFFFFF#32
  | _ => 0#32

/-- The assigned opcodes (R76). -/
def assignedOpcodes : List Nat := [0x00, 0x01, 0x10, 0x11, 0x20, 0x21, 0x30, 0x31, 0x32, 0x40, 0x41, 0x50]

end Sys2Proof.Machine
end

