-- ==== Sys2Proof/Laws/State.lean ====
section
/-! SUPPORT. One lemma per field per named update of the state: the field it writes, and the fourteen it leaves. -/

namespace Sys2Proof.Laws

open Sys2Proof.Machine

@[simp] theorem setDynAt_dyn (c : Chan) (v : Byte) (s : State) : (setDynAt c v s).dyn = writeSlot s.dyn c v := rfl
@[simp] theorem setDynAt_out (c : Chan) (v : Byte) (s : State) : (setDynAt c v s).out = s.out := rfl
@[simp] theorem setDynAt_pst (c : Chan) (v : Byte) (s : State) : (setDynAt c v s).pst = s.pst := rfl
@[simp] theorem setDynAt_ctl (c : Chan) (v : Byte) (s : State) : (setDynAt c v s).ctl = s.ctl := rfl
@[simp] theorem setDynAt_cfgCh (c : Chan) (v : Byte) (s : State) : (setDynAt c v s).cfgCh = s.cfgCh := rfl
@[simp] theorem setDynAt_gainRef (c : Chan) (v : Byte) (s : State) : (setDynAt c v s).gainRef = s.gainRef := rfl
@[simp] theorem setDynAt_gainTrk (c : Chan) (v : Byte) (s : State) : (setDynAt c v s).gainTrk = s.gainTrk := rfl
@[simp] theorem setDynAt_scene (c : Chan) (v : Byte) (s : State) : (setDynAt c v s).scene = s.scene := rfl
@[simp] theorem setDynAt_color (c : Chan) (v : Byte) (s : State) : (setDynAt c v s).color = s.color := rfl
@[simp] theorem setDynAt_list (c : Chan) (v : Byte) (s : State) : (setDynAt c v s).list = s.list := rfl
@[simp] theorem setDynAt_rxq (c : Chan) (v : Byte) (s : State) : (setDynAt c v s).rxq = s.rxq := rfl
@[simp] theorem setDynAt_trace (c : Chan) (v : Byte) (s : State) : (setDynAt c v s).trace = s.trace := rfl
@[simp] theorem setDynAt_input (c : Chan) (v : Byte) (s : State) : (setDynAt c v s).input = s.input := rfl
@[simp] theorem setDynAt_params (c : Chan) (v : Byte) (s : State) : (setDynAt c v s).params = s.params := rfl
@[simp] theorem setDynAt_live (c : Chan) (v : Byte) (s : State) : (setDynAt c v s).live = s.live := rfl

@[simp] theorem setOutAt_dyn (c : Chan) (v : Byte) (s : State) : (setOutAt c v s).dyn = s.dyn := rfl
@[simp] theorem setOutAt_out (c : Chan) (v : Byte) (s : State) : (setOutAt c v s).out = writeSlot s.out c v := rfl
@[simp] theorem setOutAt_pst (c : Chan) (v : Byte) (s : State) : (setOutAt c v s).pst = s.pst := rfl
@[simp] theorem setOutAt_ctl (c : Chan) (v : Byte) (s : State) : (setOutAt c v s).ctl = s.ctl := rfl
@[simp] theorem setOutAt_cfgCh (c : Chan) (v : Byte) (s : State) : (setOutAt c v s).cfgCh = s.cfgCh := rfl
@[simp] theorem setOutAt_gainRef (c : Chan) (v : Byte) (s : State) : (setOutAt c v s).gainRef = s.gainRef := rfl
@[simp] theorem setOutAt_gainTrk (c : Chan) (v : Byte) (s : State) : (setOutAt c v s).gainTrk = s.gainTrk := rfl
@[simp] theorem setOutAt_scene (c : Chan) (v : Byte) (s : State) : (setOutAt c v s).scene = s.scene := rfl
@[simp] theorem setOutAt_color (c : Chan) (v : Byte) (s : State) : (setOutAt c v s).color = s.color := rfl
@[simp] theorem setOutAt_list (c : Chan) (v : Byte) (s : State) : (setOutAt c v s).list = s.list := rfl
@[simp] theorem setOutAt_rxq (c : Chan) (v : Byte) (s : State) : (setOutAt c v s).rxq = s.rxq := rfl
@[simp] theorem setOutAt_trace (c : Chan) (v : Byte) (s : State) : (setOutAt c v s).trace = s.trace := rfl
@[simp] theorem setOutAt_input (c : Chan) (v : Byte) (s : State) : (setOutAt c v s).input = s.input := rfl
@[simp] theorem setOutAt_params (c : Chan) (v : Byte) (s : State) : (setOutAt c v s).params = s.params := rfl
@[simp] theorem setOutAt_live (c : Chan) (v : Byte) (s : State) : (setOutAt c v s).live = s.live := rfl

@[simp] theorem deliver_dyn (c : Chan) (v : Byte) (s : State) : (deliver c v s).dyn = s.dyn := rfl
@[simp] theorem deliver_out (c : Chan) (v : Byte) (s : State) : (deliver c v s).out = s.out := rfl
@[simp] theorem deliver_pst (c : Chan) (v : Byte) (s : State) : (deliver c v s).pst = s.pst := rfl
@[simp] theorem deliver_ctl (c : Chan) (v : Byte) (s : State) : (deliver c v s).ctl = s.ctl := rfl
@[simp] theorem deliver_cfgCh (c : Chan) (v : Byte) (s : State) : (deliver c v s).cfgCh = s.cfgCh := rfl
@[simp] theorem deliver_gainRef (c : Chan) (v : Byte) (s : State) : (deliver c v s).gainRef = s.gainRef := rfl
@[simp] theorem deliver_gainTrk (c : Chan) (v : Byte) (s : State) : (deliver c v s).gainTrk = s.gainTrk := rfl
@[simp] theorem deliver_scene (c : Chan) (v : Byte) (s : State) : (deliver c v s).scene = s.scene := rfl
@[simp] theorem deliver_color (c : Chan) (v : Byte) (s : State) : (deliver c v s).color = s.color := rfl
@[simp] theorem deliver_list (c : Chan) (v : Byte) (s : State) : (deliver c v s).list = s.list := rfl
@[simp] theorem deliver_rxq (c : Chan) (v : Byte) (s : State) : (deliver c v s).rxq = s.rxq := rfl
@[simp] theorem deliver_trace (c : Chan) (v : Byte) (s : State) : (deliver c v s).trace = s.trace ++ [{ channel := byteOfChan c, value := v }] := rfl
@[simp] theorem deliver_input (c : Chan) (v : Byte) (s : State) : (deliver c v s).input = s.input := rfl
@[simp] theorem deliver_params (c : Chan) (v : Byte) (s : State) : (deliver c v s).params = s.params := rfl
@[simp] theorem deliver_live (c : Chan) (v : Byte) (s : State) : (deliver c v s).live = s.live := rfl

@[simp] theorem appendBytes_dyn (bytes : List Byte) (s : State) : (appendBytes bytes s).dyn = s.dyn := rfl
@[simp] theorem appendBytes_out (bytes : List Byte) (s : State) : (appendBytes bytes s).out = s.out := rfl
@[simp] theorem appendBytes_pst (bytes : List Byte) (s : State) : (appendBytes bytes s).pst = s.pst := rfl
@[simp] theorem appendBytes_ctl (bytes : List Byte) (s : State) : (appendBytes bytes s).ctl = s.ctl := rfl
@[simp] theorem appendBytes_cfgCh (bytes : List Byte) (s : State) : (appendBytes bytes s).cfgCh = s.cfgCh := rfl
@[simp] theorem appendBytes_gainRef (bytes : List Byte) (s : State) : (appendBytes bytes s).gainRef = s.gainRef := rfl
@[simp] theorem appendBytes_gainTrk (bytes : List Byte) (s : State) : (appendBytes bytes s).gainTrk = s.gainTrk := rfl
@[simp] theorem appendBytes_scene (bytes : List Byte) (s : State) : (appendBytes bytes s).scene = s.scene := rfl
@[simp] theorem appendBytes_color (bytes : List Byte) (s : State) : (appendBytes bytes s).color = s.color := rfl
@[simp] theorem appendBytes_list (bytes : List Byte) (s : State) : (appendBytes bytes s).list = s.list := rfl
@[simp] theorem appendBytes_rxq (bytes : List Byte) (s : State) : (appendBytes bytes s).rxq = s.rxq ++ bytes := rfl
@[simp] theorem appendBytes_trace (bytes : List Byte) (s : State) : (appendBytes bytes s).trace = s.trace := rfl
@[simp] theorem appendBytes_input (bytes : List Byte) (s : State) : (appendBytes bytes s).input = s.input := rfl
@[simp] theorem appendBytes_params (bytes : List Byte) (s : State) : (appendBytes bytes s).params = s.params := rfl
@[simp] theorem appendBytes_live (bytes : List Byte) (s : State) : (appendBytes bytes s).live = s.live := rfl

@[simp] theorem pushEvent_dyn (e : Event) (s : State) : (pushEvent e s).dyn = s.dyn := rfl
@[simp] theorem pushEvent_out (e : Event) (s : State) : (pushEvent e s).out = s.out := rfl
@[simp] theorem pushEvent_pst (e : Event) (s : State) : (pushEvent e s).pst = s.pst := rfl
@[simp] theorem pushEvent_ctl (e : Event) (s : State) : (pushEvent e s).ctl = s.ctl := rfl
@[simp] theorem pushEvent_cfgCh (e : Event) (s : State) : (pushEvent e s).cfgCh = s.cfgCh := rfl
@[simp] theorem pushEvent_gainRef (e : Event) (s : State) : (pushEvent e s).gainRef = s.gainRef := rfl
@[simp] theorem pushEvent_gainTrk (e : Event) (s : State) : (pushEvent e s).gainTrk = s.gainTrk := rfl
@[simp] theorem pushEvent_scene (e : Event) (s : State) : (pushEvent e s).scene = s.scene := rfl
@[simp] theorem pushEvent_color (e : Event) (s : State) : (pushEvent e s).color = s.color := rfl
@[simp] theorem pushEvent_list (e : Event) (s : State) : (pushEvent e s).list = s.list := rfl
@[simp] theorem pushEvent_rxq (e : Event) (s : State) : (pushEvent e s).rxq = s.rxq := rfl
@[simp] theorem pushEvent_trace (e : Event) (s : State) : (pushEvent e s).trace = s.trace := rfl
@[simp] theorem pushEvent_input (e : Event) (s : State) : (pushEvent e s).input = e :: s.input := rfl
@[simp] theorem pushEvent_params (e : Event) (s : State) : (pushEvent e s).params = s.params := rfl
@[simp] theorem pushEvent_live (e : Event) (s : State) : (pushEvent e s).live = s.live := rfl

end Sys2Proof.Laws
end

