-- ==== Sys2Proof/Laws/Slots.lean ====
section
/-! SUPPORT. The register files: read after write, extensionality, and the list of all channels. -/

namespace Sys2Proof.Laws

open Sys2Proof.Machine

@[simp] theorem readSlot_writeSlot_same (f : ChanFile) (c : Chan) (v : Byte) : readSlot (writeSlot f c v) c = v := by
  simp [readSlot, writeSlot]

theorem readSlot_writeSlot_ne (f : ChanFile) {c d : Chan} (v : Byte) (h : c ≠ d) :
    readSlot (writeSlot f c v) d = readSlot f d := by
  have hne : c.toNat ≠ d.toNat := fun e => h (BitVec.eq_of_toNat_eq e)
  simp [readSlot, writeSlot, Vector.getElem_set_ne _ _ hne]

theorem readSlot_writeSlot (f : ChanFile) (c d : Chan) (v : Byte) :
    readSlot (writeSlot f c v) d = if c = d then v else readSlot f d := by
  by_cases h : c = d
  · subst h; simp
  · simp [h, readSlot_writeSlot_ne]

@[simp] theorem readSlot_replicate (v : Byte) (c : Chan) : readSlot (Vector.replicate 128 v) c = v := by
  simp [readSlot]

theorem chanFile_ext {f g : ChanFile} (h : ∀ c, readSlot f c = readSlot g c) : f = g := by
  apply Vector.ext
  intro i hi
  have := h (BitVec.ofNat 7 i)
  simpa [readSlot, Nat.mod_eq_of_lt hi] using this

theorem writeSlot_readSlot (f : ChanFile) (c : Chan) : writeSlot f c (readSlot f c) = f :=
  chanFile_ext fun d => by
    rw [readSlot_writeSlot]
    by_cases h : c = d
    · simp [h]
    · simp [h]

theorem writeSlot_writeSlot (f : ChanFile) (c : Chan) (v w : Byte) :
    writeSlot (writeSlot f c v) c w = writeSlot f c w :=
  chanFile_ext fun d => by
    by_cases h : c = d <;> simp [readSlot_writeSlot, h]

theorem mem_channels (c : Chan) : c ∈ channels := by
  simp only [channels, List.mem_map, List.mem_range]
  exact ⟨c.toNat, c.isLt, by simp⟩

theorem channels_nodup : channels.Nodup := by
  refine List.Nodup.map_on ?_ List.nodup_range
  intro a ha b hb h
  have := congrArg BitVec.toNat h
  simp only [List.mem_range, nch] at ha hb
  simpa [Nat.mod_eq_of_lt ha, Nat.mod_eq_of_lt hb] using this

@[simp] theorem chanOf_byteOfChan (c : Chan) : chanOf (byteOfChan c) = c := by
  apply BitVec.eq_of_toNat_eq
  have := c.isLt
  simp [chanOf, byteOfChan]
  omega

theorem byteOfChan_le (c : Chan) : (byteOfChan c).toNat ≤ 127 := by
  have := c.isLt
  simp [byteOfChan]
  omega

theorem outOfRange_false_iff {b : Byte} : outOfRange b = false ↔ b.toNat ≤ 127 :=
  ⟨fun h => Nat.le_of_not_lt (of_decide_eq_false h), fun h => decide_eq_false (Nat.not_lt.mpr h)⟩

theorem outOfRange_true_iff {b : Byte} : outOfRange b = true ↔ 128 ≤ b.toNat :=
  ⟨of_decide_eq_true, fun h => decide_eq_true h⟩

theorem byteOfChan_chanOf {b : Byte} (h : outOfRange b = false) : byteOfChan (chanOf b) = b := by
  have hb : b.toNat < 128 := Nat.lt_succ_of_le (outOfRange_false_iff.mp h)
  apply BitVec.eq_of_toNat_eq
  rw [byteOfChan, BitVec.toNat_setWidth, chanOf, BitVec.extractLsb'_toNat]
  simp [Nat.mod_eq_of_lt hb]
  omega

end Sys2Proof.Laws
end

