-- ==== Sys2Proof/Laws/Emit.lean ====
section
/-! SUPPORT. What `Emit` and a list of `Emit`s do (R131): the file, the events, and that nothing else changes. -/

namespace Sys2Proof.Laws

open Sys2Proof.Machine

/-- Everything `Emit` can do: nothing, or one write and one event. -/
theorem emit_cases (c : Chan) (v : Byte) (s : State) :
    (outAt s c = v ∧ emit c v s = s) ∨ (outAt s c ≠ v ∧ emit c v s = deliver c v (setOutAt c v s)) := by
  by_cases h : outAt s c = v
  · exact .inl ⟨h, by simp [emit, changed, h]⟩
  · exact .inr ⟨h, by simp [emit, changed, h]⟩

theorem emit_out (c : Chan) (v : Byte) (s : State) : (emit c v s).out = writeSlot s.out c v := by
  obtain ⟨h, e⟩ | ⟨_, e⟩ := emit_cases c v s
  · rw [e, ← h, outAt, writeSlot_readSlot]
  · rw [e]; rfl

theorem emit_trace (c : Chan) (v : Byte) (s : State) :
    (emit c v s).trace = s.trace ++ planEvents s.out [(c, v)] := by
  obtain ⟨h, e⟩ | ⟨h, e⟩ := emit_cases c v s
  · rw [e, planEvents, if_pos (show readSlot s.out c = v from h), planEvents, List.append_nil]
  · rw [e, planEvents, if_neg (show ¬readSlot s.out c = v from h)]; rfl

@[simp] theorem emit_dyn (c : Chan) (v : Byte) (s : State) : (emit c v s).dyn = s.dyn := by
  obtain ⟨_, e⟩ | ⟨_, e⟩ := emit_cases c v s <;> simp [e]

@[simp] theorem emit_pst (c : Chan) (v : Byte) (s : State) : (emit c v s).pst = s.pst := by
  obtain ⟨_, e⟩ | ⟨_, e⟩ := emit_cases c v s <;> simp [e]

@[simp] theorem emit_ctl (c : Chan) (v : Byte) (s : State) : (emit c v s).ctl = s.ctl := by
  obtain ⟨_, e⟩ | ⟨_, e⟩ := emit_cases c v s <;> simp [e]

@[simp] theorem emit_cfgCh (c : Chan) (v : Byte) (s : State) : (emit c v s).cfgCh = s.cfgCh := by
  obtain ⟨_, e⟩ | ⟨_, e⟩ := emit_cases c v s <;> simp [e]

@[simp] theorem emit_gainRef (c : Chan) (v : Byte) (s : State) : (emit c v s).gainRef = s.gainRef := by
  obtain ⟨_, e⟩ | ⟨_, e⟩ := emit_cases c v s <;> simp [e]

@[simp] theorem emit_gainTrk (c : Chan) (v : Byte) (s : State) : (emit c v s).gainTrk = s.gainTrk := by
  obtain ⟨_, e⟩ | ⟨_, e⟩ := emit_cases c v s <;> simp [e]

@[simp] theorem emit_scene (c : Chan) (v : Byte) (s : State) : (emit c v s).scene = s.scene := by
  obtain ⟨_, e⟩ | ⟨_, e⟩ := emit_cases c v s <;> simp [e]

@[simp] theorem emit_color (c : Chan) (v : Byte) (s : State) : (emit c v s).color = s.color := by
  obtain ⟨_, e⟩ | ⟨_, e⟩ := emit_cases c v s <;> simp [e]

@[simp] theorem emit_list (c : Chan) (v : Byte) (s : State) : (emit c v s).list = s.list := by
  obtain ⟨_, e⟩ | ⟨_, e⟩ := emit_cases c v s <;> simp [e]

@[simp] theorem emit_rxq (c : Chan) (v : Byte) (s : State) : (emit c v s).rxq = s.rxq := by
  obtain ⟨_, e⟩ | ⟨_, e⟩ := emit_cases c v s <;> simp [e]

@[simp] theorem emit_input (c : Chan) (v : Byte) (s : State) : (emit c v s).input = s.input := by
  obtain ⟨_, e⟩ | ⟨_, e⟩ := emit_cases c v s <;> simp [e]

@[simp] theorem emit_params (c : Chan) (v : Byte) (s : State) : (emit c v s).params = s.params := by
  obtain ⟨_, e⟩ | ⟨_, e⟩ := emit_cases c v s <;> simp [e]

@[simp] theorem emit_live (c : Chan) (v : Byte) (s : State) : (emit c v s).live = s.live := by
  obtain ⟨_, e⟩ | ⟨_, e⟩ := emit_cases c v s <;> simp [e]

/-- A list of `(channel, value)` writes, each through `Emit`. -/
def runPlan (p : List (Chan × Byte)) (s : State) : State := p.foldl (fun t e => emit e.1 e.2 t) s

/-- The register file after the writes. -/
def planFile (shown : ChanFile) (p : List (Chan × Byte)) : ChanFile :=
  p.foldl (fun f e => writeSlot f e.1 e.2) shown

@[simp] theorem runPlan_nil (s : State) : runPlan [] s = s := rfl

@[simp] theorem runPlan_cons (e : Chan × Byte) (p : List (Chan × Byte)) (s : State) :
    runPlan (e :: p) s = runPlan p (emit e.1 e.2 s) := rfl

theorem runPlan_append (p q : List (Chan × Byte)) (s : State) : runPlan (p ++ q) s = runPlan q (runPlan p s) :=
  List.foldl_append

theorem planEvents_append (shown : ChanFile) (p q : List (Chan × Byte)) :
    planEvents shown (p ++ q) = planEvents shown p ++ planEvents (planFile shown p) q := by
  induction p generalizing shown with
  | nil => rfl
  | cons e p ih =>
    obtain ⟨c, v⟩ := e
    by_cases h : readSlot shown c = v
    · have hw : writeSlot shown c v = shown := by rw [← h, writeSlot_readSlot]
      simp [planEvents, h, ih, planFile, hw]
    · simp [planEvents, h, ih, planFile]

theorem runPlan_out (p : List (Chan × Byte)) (s : State) : (runPlan p s).out = planFile s.out p := by
  induction p generalizing s with
  | nil => rfl
  | cons e p ih => rw [runPlan_cons, ih, emit_out]; rfl

theorem runPlan_trace (p : List (Chan × Byte)) (s : State) :
    (runPlan p s).trace = s.trace ++ planEvents s.out p := by
  induction p generalizing s with
  | nil => simp [planEvents]
  | cons e p ih =>
    rw [runPlan_cons, ih, emit_trace, emit_out, List.append_assoc, ← List.singleton_append (l := p),
      planEvents_append]
    rfl

@[simp] theorem runPlan_dyn (p : List (Chan × Byte)) (s : State) : (runPlan p s).dyn = s.dyn := by
  induction p generalizing s with
  | nil => rfl
  | cons e p ih => rw [runPlan_cons, ih, emit_dyn]

@[simp] theorem runPlan_pst (p : List (Chan × Byte)) (s : State) : (runPlan p s).pst = s.pst := by
  induction p generalizing s with
  | nil => rfl
  | cons e p ih => rw [runPlan_cons, ih, emit_pst]

@[simp] theorem runPlan_ctl (p : List (Chan × Byte)) (s : State) : (runPlan p s).ctl = s.ctl := by
  induction p generalizing s with
  | nil => rfl
  | cons e p ih => rw [runPlan_cons, ih, emit_ctl]

@[simp] theorem runPlan_cfgCh (p : List (Chan × Byte)) (s : State) : (runPlan p s).cfgCh = s.cfgCh := by
  induction p generalizing s with
  | nil => rfl
  | cons e p ih => rw [runPlan_cons, ih, emit_cfgCh]

@[simp] theorem runPlan_gainRef (p : List (Chan × Byte)) (s : State) : (runPlan p s).gainRef = s.gainRef := by
  induction p generalizing s with
  | nil => rfl
  | cons e p ih => rw [runPlan_cons, ih, emit_gainRef]

@[simp] theorem runPlan_gainTrk (p : List (Chan × Byte)) (s : State) : (runPlan p s).gainTrk = s.gainTrk := by
  induction p generalizing s with
  | nil => rfl
  | cons e p ih => rw [runPlan_cons, ih, emit_gainTrk]

@[simp] theorem runPlan_scene (p : List (Chan × Byte)) (s : State) : (runPlan p s).scene = s.scene := by
  induction p generalizing s with
  | nil => rfl
  | cons e p ih => rw [runPlan_cons, ih, emit_scene]

@[simp] theorem runPlan_color (p : List (Chan × Byte)) (s : State) : (runPlan p s).color = s.color := by
  induction p generalizing s with
  | nil => rfl
  | cons e p ih => rw [runPlan_cons, ih, emit_color]

@[simp] theorem runPlan_list (p : List (Chan × Byte)) (s : State) : (runPlan p s).list = s.list := by
  induction p generalizing s with
  | nil => rfl
  | cons e p ih => rw [runPlan_cons, ih, emit_list]

@[simp] theorem runPlan_rxq (p : List (Chan × Byte)) (s : State) : (runPlan p s).rxq = s.rxq := by
  induction p generalizing s with
  | nil => rfl
  | cons e p ih => rw [runPlan_cons, ih, emit_rxq]

@[simp] theorem runPlan_input (p : List (Chan × Byte)) (s : State) : (runPlan p s).input = s.input := by
  induction p generalizing s with
  | nil => rfl
  | cons e p ih => rw [runPlan_cons, ih, emit_input]

@[simp] theorem runPlan_params (p : List (Chan × Byte)) (s : State) : (runPlan p s).params = s.params := by
  induction p generalizing s with
  | nil => rfl
  | cons e p ih => rw [runPlan_cons, ih, emit_params]

@[simp] theorem runPlan_live (p : List (Chan × Byte)) (s : State) : (runPlan p s).live = s.live := by
  induction p generalizing s with
  | nil => rfl
  | cons e p ih => rw [runPlan_cons, ih, emit_live]

/-- A plan changes `OUT` and the trace, and nothing else. -/
theorem runPlan_eq (p : List (Chan × Byte)) (s : State) :
    runPlan p s = { s with out := planFile s.out p, trace := s.trace ++ planEvents s.out p } := by
  have h : runPlan p s = { s with out := (runPlan p s).out, trace := (runPlan p s).trace } := by
    induction p generalizing s with
    | nil => rfl
    | cons e p ih =>
      rw [runPlan_cons, ih]
      obtain ⟨_, h⟩ | ⟨_, h⟩ := emit_cases e.1 e.2 s <;> (rw [h]; try rfl)
  rw [h, runPlan_out, runPlan_trace]

theorem planFile_of_not_mem {c : Chan} {p : List (Chan × Byte)} (shown : ChanFile) (h : ∀ e ∈ p, e.1 ≠ c) :
    readSlot (planFile shown p) c = readSlot shown c := by
  induction p generalizing shown with
  | nil => rfl
  | cons e p ih =>
    have := ih (writeSlot shown e.1 e.2) fun x hx => h x (List.mem_cons_of_mem _ hx)
    rw [readSlot_writeSlot_ne _ _ (h e List.mem_cons_self)] at this
    exact this

/-- The last write to a channel stands. -/
theorem planFile_append (shown : ChanFile) (p q : List (Chan × Byte)) :
    planFile shown (p ++ q) = planFile (planFile shown p) q := List.foldl_append

/-- After writing `f c` to every `c` of a list, a channel of the list reads `f c`, any other as before. -/
theorem planFile_map (f : Chan → Byte) (cs : List Chan) (shown : ChanFile) (c : Chan) :
    readSlot (planFile shown (cs.map fun c => (c, f c))) c = if c ∈ cs then f c else readSlot shown c := by
  induction cs generalizing shown with
  | nil => rfl
  | cons d cs ih =>
    have := ih (writeSlot shown d (f d))
    rw [List.map_cons, show planFile shown ((d, f d) :: cs.map fun c => (c, f c)) =
      planFile (writeSlot shown d (f d)) (cs.map fun c => (c, f c)) from rfl, this, readSlot_writeSlot]
    by_cases hc : c ∈ cs
    · simp [hc]
    · by_cases hd : d = c
      · simp [hd]
      · simp [hc, hd, Ne.symm hd]

/-- The events of an ascending sweep in closed form. -/
theorem planEvents_sweep (f : Chan → Byte) (cs : List Chan) (hn : cs.Nodup) (shown : ChanFile) :
    planEvents shown (cs.map fun c => (c, f c)) =
      (cs.filter fun c => readSlot shown c != f c).map fun c => { channel := byteOfChan c, value := f c } := by
  induction cs generalizing shown with
  | nil => rfl
  | cons d cs ih =>
    obtain ⟨hd, hcs⟩ := List.nodup_cons.mp hn
    rw [List.map_cons, planEvents]
    by_cases h : readSlot shown d = f d
    · simp [h, ih hcs]
    · have hsame : (cs.filter fun c => readSlot (writeSlot shown d (f d)) c != f c) =
          cs.filter fun c => readSlot shown c != f c :=
        List.filter_congr fun c hc => by
          rw [readSlot_writeSlot_ne _ _ fun e : d = c => hd (e ▸ hc)]
      simp [h, ih hcs, hsame]

/-- The events of a plan, one after another, are changes of the file, and leave it as the plan does. -/
theorem planEvents_replay (p : List (Chan × Byte)) (shown : ChanFile) :
    EachChanges shown (planEvents shown p) ∧ planFile shown p = applyEvents shown (planEvents shown p) := by
  induction p generalizing shown with
  | nil => exact ⟨trivial, rfl⟩
  | cons e p ih =>
    obtain ⟨c, v⟩ := e
    by_cases h : readSlot shown c = v
    · have hw : writeSlot shown c v = shown := by rw [← h, writeSlot_readSlot]
      have := ih shown
      simpa [planEvents, h, planFile, hw] using this
    · have := ih (writeSlot shown c v)
      simp only [planEvents, h, if_false]
      refine ⟨⟨byteOfChan_le c, by simpa using h, by simpa using this.1⟩, ?_⟩
      have h2 := this.2
      simpa [planFile, applyEvents] using h2

theorem planEvents_length (p : List (Chan × Byte)) (shown : ChanFile) :
    (planEvents shown p).length ≤ p.length := by
  induction p generalizing shown with
  | nil => exact Nat.le_refl 0
  | cons e p ih =>
    obtain ⟨c, v⟩ := e
    rw [planEvents]
    split
    · exact Nat.le_succ_of_le (ih _)
    · simpa using ih _

end Sys2Proof.Laws
end

