-- ==== Sys2Proof/Laws/Ops.lean ====
section
/-! SUPPORT. One lemma per shared operation that says everything it can do. -/

namespace Sys2Proof.Laws

open Sys2Proof.Machine

/-- A fold of `Emit`s whose values do not depend on what the fold changes is a plan. -/
theorem foldl_emit_eq_runPlan (f : State → Chan → Byte) (hf : ∀ t c v d, f (emit c v t) d = f t d)
    (cs : List Chan) (s : State) :
    cs.foldl (fun t c => emit c (f t c) t) s = runPlan (cs.map fun c => (c, f s c)) s := by
  induction cs generalizing s with
  | nil => rfl
  | cons c cs ih =>
    rw [List.foldl_cons, ih, List.map_cons, runPlan_cons]
    congr 1
    exact List.map_congr_left fun d _ => by rw [hf]

theorem runPlan_setScene (p : List (Chan × Byte)) (x : Scene) (s : State) :
    ({ runPlan p s with scene := x } : State) = runPlan p { s with scene := x } := by
  rw [runPlan_eq, runPlan_eq]

theorem showDynamic_eq (s : State) :
    showDynamic s = runPlan (channels.map fun c => (c, scale (dynAt s c) s.gainRef)) s :=
  foldl_emit_eq_runPlan (fun t c => scale (dynAt t c) t.gainRef) (fun t c v d => by simp [dynAt]) channels s

theorem blackoutAll_eq (s : State) : blackoutAll s = runPlan (channels.map fun c => (c, 0#8)) s :=
  foldl_emit_eq_runPlan (fun _ _ => 0#8) (fun _ _ _ _ => rfl) channels s

theorem emitList_eq (v : Byte) (cs : List Chan) (s : State) :
    emitList v cs s = runPlan (cs.map fun c => (c, v)) s :=
  foldl_emit_eq_runPlan (fun _ _ => v) (fun _ _ _ _ => rfl) cs s

@[simp] theorem listAt_runPlan (p : List (Chan × Byte)) (s : State) (k : Colour) :
    listAt (runPlan p s) k = listAt s k := by simp [listAt]

@[simp] theorem colorAt_runPlan (p : List (Chan × Byte)) (s : State) (k : Colour) :
    colorAt (runPlan p s) k = colorAt s k := by simp [colorAt]

theorem showStatic_eq (s : State) : showStatic s = runPlan (staticPlan s (colorAt s)) s := by
  simp [showStatic, staticPlan, colours, emitList_eq, runPlan_append]

theorem blackoutStatic_eq (s : State) : blackoutStatic s = runPlan (staticPlan s fun _ => 0#8) s := by
  simp [blackoutStatic, staticPlan, colours, emitList_eq, runPlan_append]

/-- Everything a channel write can do (R133): discarded, pending, or stored and shown. -/
theorem setDmxValue_cases (d : DmxValue) (s : State) :
    ((d.valid = false ∨ 128 ≤ d.channel.toNat) ∧ setDmxValue d s = s) ∨
    (d.valid = true ∧ d.channel.toNat ≤ 127 ∧ s.scene = .static ∧
      setDmxValue d s = setDynAt (chanOf d.channel) d.value s) ∨
    (d.valid = true ∧ d.channel.toNat ≤ 127 ∧ s.scene = .dynamic ∧
      setDmxValue d s =
        emit (chanOf d.channel) (scale d.value s.gainRef) (setDynAt (chanOf d.channel) d.value s)) := by
  cases hv : d.valid
  · exact .inl ⟨.inl rfl, by simp [setDmxValue, dvValid, hv]⟩
  · cases hr : outOfRange d.channel
    · have hr' := outOfRange_false_iff.mp hr
      cases hs : s.scene
      · exact .inr (.inr ⟨rfl, hr', rfl, by simp [setDmxValue, dvValid, hv, hr, hs]⟩)
      · exact .inr (.inl ⟨rfl, hr', rfl, by simp [setDmxValue, dvValid, hv, hr, hs]⟩)
    · exact .inl ⟨.inr (outOfRange_true_iff.mp hr), by simp [setDmxValue, dvValid, hv, hr]⟩

/-- `DYN` after a channel write. -/
def dmxFile (d : DmxValue) (f : ChanFile) : ChanFile :=
  if d.valid = true ∧ d.channel.toNat ≤ 127 then writeSlot f (chanOf d.channel) d.value else f

/-- The `Emit` a channel write performs, if any. -/
def dmxPlan (d : DmxValue) (scene : Scene) (g : Gain) : List (Chan × Byte) :=
  if d.valid = true ∧ d.channel.toNat ≤ 127 ∧ scene = .dynamic then [(chanOf d.channel, scale d.value g)] else []

/-- A channel write in closed form: it depends on `SCENE`, `GAIN_REF` and the two files, and writes the files and the
trace alone. -/
theorem setDmxValue_eq (d : DmxValue) (s : State) :
    setDmxValue d s =
      { s with
        dyn := dmxFile d s.dyn
        out := planFile s.out (dmxPlan d s.scene s.gainRef)
        trace := s.trace ++ planEvents s.out (dmxPlan d s.scene s.gainRef) } := by
  obtain ⟨h, e⟩ | ⟨hv, hc, hs, e⟩ | ⟨hv, hc, hs, e⟩ := setDmxValue_cases d s
  · have hno : ¬(d.valid = true ∧ d.channel.toNat ≤ 127) := by
      rintro ⟨a, b⟩
      rcases h with h | h
      · simp [a] at h
      · omega
    have hno' : ¬(d.valid = true ∧ d.channel.toNat ≤ 127 ∧ s.scene = .dynamic) := fun h => hno ⟨h.1, h.2.1⟩
    rw [e, dmxFile, dmxPlan, if_neg hno, if_neg hno']
    simp [planFile, planEvents]
  · have hno : ¬(d.valid = true ∧ d.channel.toNat ≤ 127 ∧ s.scene = .dynamic) := fun h => by simp [hs] at h
    rw [e, dmxFile, dmxPlan, if_pos ⟨hv, hc⟩, if_neg hno]
    simp [planFile, planEvents, setDynAt]
  · rw [e, dmxFile, dmxPlan, if_pos ⟨hv, hc⟩, if_pos ⟨hv, hc, hs⟩]
    exact runPlan_eq [(chanOf d.channel, scale d.value s.gainRef)] (setDynAt (chanOf d.channel) d.value s)

theorem mapChannel_toNat (c : Byte) : (mapChannel c).toNat = min c.toNat 127 := by
  have := c.isLt
  simp only [mapChannel, chMax, BitVec.toNat_ofNat]
  omega

theorem mapValue_toNat (v : Byte) : (mapValue v).toNat = if v.toNat ≤ 127 then 2 * v.toNat else 254 := by
  by_cases h : v.toNat ≤ 127
  · simp only [mapValue, midiMax, BitVec.toNat_ofNat, if_pos h]
    omega
  · simp [mapValue, midiMax, dmxCeil, if_neg h]

theorem clampGain_toNat (g : Half) : (clampGain g).toNat = min g.toNat 1024 := by
  simp only [clampGain, gainUnity, BitVec.toNat_ofNat]
  omega

theorem attenuation_toNat (m : Nat) (raw : Half) :
    (attenuation m raw).toNat = min 1024 (raw.toNat * 1024 / m) := by
  have h := Nat.min_le_left 1024 (raw.toNat * 1024 / m)
  exact Nat.mod_eq_of_lt (by simp only [gainUnity]; omega)

theorem scale_toNat (v : Byte) {g : Gain} (h : g.toNat ≤ 1024) : (scale v g).toNat = v.toNat * g.toNat / 1024 := by
  have hv := v.isLt
  have hle : v.toNat * g.toNat / 1024 ≤ v.toNat :=
    Nat.div_le_of_le_mul (by rw [Nat.mul_comm 1024]; exact Nat.mul_le_mul_left _ h)
  simp only [scale, gainShift, BitVec.toNat_ofNat, Nat.shiftRight_eq_div_pow]
  omega

theorem applies_iff (a b : Gain) : applies a b = true ↔ 5 < absDiff a.toNat b.toNat :=
  ⟨of_decide_eq_true, fun h => decide_eq_true h⟩

/-- Everything a gain write can do (R137): absorbed, applied silently, or applied with a sweep. -/
theorem setGainTo_cases (g : Half) (s : State) :
    (applies (clampGain g) s.gainRef = false ∧ setGainTo g s = { s with gainTrk := clampGain g }) ∨
    (applies (clampGain g) s.gainRef = true ∧ s.scene = .static ∧
      setGainTo g s = { s with gainTrk := clampGain g, gainRef := clampGain g }) ∨
    (applies (clampGain g) s.gainRef = true ∧ s.scene = .dynamic ∧
      setGainTo g s = showDynamic { s with gainTrk := clampGain g, gainRef := clampGain g }) := by
  cases ha : applies (clampGain g) s.gainRef
  · exact .inl ⟨rfl, by simp [setGainTo, ha]⟩
  · cases hs : s.scene
    · exact .inr (.inr ⟨rfl, rfl, by simp [setGainTo, ha, hs]⟩)
    · exact .inr (.inl ⟨rfl, rfl, by simp [setGainTo, ha, hs]⟩)

/-- Everything a push can do (R152): discarded, or appended to one list. -/
theorem pushChannel_cases (k : BitVec 2) (channel : Byte) (s : State) :
    pushChannel k channel s = s ∨
    ∃ colour, colourOf k = some colour ∧ channel.toNat ≤ 127 ∧ lenAt s colour ≠ s.params.lcap ∧
      pushChannel k channel s = { s with list := setColour s.list colour (listAt s colour ++ [chanOf channel]) } := by
  cases hk : colourOf k with
  | none => exact .inl (by simp [pushChannel, hk])
  | some colour =>
    cases hr : outOfRange channel
    · by_cases hl : lenAt s colour = s.params.lcap
      · exact .inl (by simp [pushChannel, hk, hr, hl])
      · exact .inr ⟨colour, rfl, outOfRange_false_iff.mp hr, hl, by simp [pushChannel, hk, hr, hl]⟩
    · exact .inl (by simp [pushChannel, hk, hr])

@[simp] theorem getColour_setColour_same {α : Type} (p : PerColour α) (k : Colour) (a : α) :
    getColour (setColour p k a) k = a := by cases k <;> rfl

theorem getColour_setColour_ne {α : Type} (p : PerColour α) {k j : Colour} (a : α) (h : k ≠ j) :
    getColour (setColour p k a) j = getColour p j := by cases k <;> cases j <;> first | rfl | exact absurd rfl h

theorem showStatic_setScene (p : List (Chan × Byte)) (s : State) :
    showStatic { runPlan p s with scene := .static } =
      runPlan (p ++ staticPlan s (colorAt s)) { s with scene := .static } := by
  rw [runPlan_setScene, showStatic_eq, runPlan_append]
  simp [staticPlan, listAt, colorAt]

theorem showDynamic_setScene (p : List (Chan × Byte)) (s : State) :
    showDynamic { runPlan p s with scene := .dynamic } =
      runPlan (p ++ channels.map fun c => (c, scale (dynAt s c) s.gainRef)) { s with scene := .dynamic } := by
  rw [runPlan_setScene, showDynamic_eq, runPlan_append]
  simp [dynAt]

/-- Everything `ACTS` can do (R156). -/
theorem activateStatic_cases (s : State) :
    (s.scene = .static ∧ activateStatic s = s) ∨
    (s.scene = .dynamic ∧ activateStatic s =
      runPlan ((channels.map fun c => (c, 0#8)) ++ staticPlan s (colorAt s)) { s with scene := .static }) := by
  cases hs : s.scene
  · refine .inr ⟨rfl, ?_⟩
    simp only [activateStatic, hs, blackoutAll_eq]
    exact showStatic_setScene _ s
  · exact .inl ⟨rfl, by simp [activateStatic, hs]⟩

/-- Everything `ACTD` can do (R158). -/
theorem activateDynamic_cases (s : State) :
    (s.scene = .dynamic ∧ activateDynamic s = s) ∨
    (s.scene = .static ∧ activateDynamic s =
      runPlan (staticPlan s (fun _ => 0#8) ++ channels.map fun c => (c, scale (dynAt s c) s.gainRef))
        { s with scene := .dynamic }) := by
  cases hs : s.scene
  · exact .inl ⟨rfl, by simp [activateDynamic, hs]⟩
  · refine .inr ⟨rfl, ?_⟩
    simp only [activateDynamic, hs, blackoutStatic_eq]
    exact showDynamic_setScene _ s

theorem matchesStatus_iff (b : Byte) (n : MidiChan) : matchesStatus b n = true ↔ b.toNat = 0xB0 + n.toNat := by
  have hb := b.isLt
  have hn := n.isLt
  simp only [matchesStatus, hasMarker, ccMarker, Bool.and_eq_true, beq_iff_eq, ← BitVec.toNat_inj,
    BitVec.extractLsb'_toNat, BitVec.toNat_ofNat, Nat.shiftRight_eq_div_pow]
  omega

/-- Everything a received byte can do (R111 to R115). -/
theorem receiveByte_cases (b : Byte) (s : State) :
    (s.pst = .waitStatus ∧ b.toNat = 0xB0 + s.cfgCh.toNat ∧ receiveByte b s = ({ s with pst := .haveStatus }, false)) ∨
    (s.pst = .waitStatus ∧ b.toNat ≠ 0xB0 + s.cfgCh.toNat ∧ receiveByte b s = (s, false)) ∨
    (s.pst = .haveStatus ∧ receiveByte b s = ({ s with ctl := b, pst := .haveChannel }, false)) ∨
    (s.pst = .haveChannel ∧ receiveByte b s = (setCcValue s.ctl b { s with pst := .waitStatus }, true)) := by
  cases hp : s.pst
  · cases hm : matchesStatus b s.cfgCh
    · have : ¬b.toNat = 0xB0 + s.cfgCh.toNat := fun h => by simp [(matchesStatus_iff b s.cfgCh).mpr h] at hm
      exact .inr (.inl ⟨rfl, this, by simp [receiveByte, hp, hm]⟩)
    · exact .inl ⟨rfl, (matchesStatus_iff b s.cfgCh).mp hm, by simp [receiveByte, hp, hm]⟩
  · exact .inr (.inr (.inl ⟨rfl, by simp [receiveByte, hp]⟩))
  · exact .inr (.inr (.inr ⟨rfl, by simp [receiveByte, hp]⟩))

/-- A received byte depends on nothing but the parser, `SCENE`, `GAIN_REF` and the files: it commutes with any change of
the tracked gain, the byte source and the events to come. -/
theorem receiveByte_beside (b : Byte) (s : State) (g : Gain) (q : List Byte) (l : List Event) :
    receiveByte b { s with gainTrk := g, rxq := q, input := l } =
      ({ (receiveByte b s).1 with gainTrk := g, rxq := q, input := l }, (receiveByte b s).2) := by
  cases hp : s.pst
  · cases hm : matchesStatus b s.cfgCh <;> simp [receiveByte, hp, hm]
  · simp [receiveByte, hp]
  · simp [receiveByte, hp, setCcValue, setDmxValue_eq]

/-- What a received byte leaves, in every state of the parser. -/
theorem receiveByte_frame (b : Byte) (s : State) :
    (receiveByte b s).1 =
      { s with
        dyn := (receiveByte b s).1.dyn
        out := (receiveByte b s).1.out
        trace := (receiveByte b s).1.trace
        pst := (receiveByte b s).1.pst
        ctl := (receiveByte b s).1.ctl } := by
  obtain ⟨_, _, e⟩ | ⟨_, _, e⟩ | ⟨_, e⟩ | ⟨_, e⟩ := receiveByte_cases b s
  · rw [e]
  · rw [e]
  · rw [e]
  · rw [e, setCcValue, setDmxValue_eq]

/-- An operation completes exactly after a `RESET`, in the one state it gives. -/
theorem whenLive_next_iff (s t u : State) : whenLive s t = .next u ↔ s.live = true ∧ t = u := by
  unfold whenLive
  split <;> simp_all

@[simp] theorem whenLive_of_live {s t : State} (h : s.live = true) : whenLive s t = .next t := by
  simp [whenLive, h]

theorem whenLive_of_not_live {s t : State} (h : s.live = false) : whenLive s t = .refused .beforeReset := by
  simp [whenLive, h]

@[simp] theorem pollLoop_nil (s : State) : pollLoop [] s = s := rfl

/-- A byte that completes no frame is consumed, and the poll goes on with the next (R171). -/
theorem pollLoop_skip {b : Byte} {rest : List Byte} {s t : State} (h : receiveByte b { s with rxq := rest } = (t, false)) :
    pollLoop (b :: rest) s = pollLoop rest t := by
  rw [pollLoop, h]

/-- A byte that completes a frame ends the poll (R171). -/
theorem pollLoop_done {b : Byte} {rest : List Byte} {s t : State} (h : receiveByte b { s with rxq := rest } = (t, true)) :
    pollLoop (b :: rest) s = t := by
  rw [pollLoop, h]

/-- `GAIN_REF` after a gain write. -/
def appliedGain (g : Half) (applied : Gain) : Gain := if applies (clampGain g) applied then clampGain g else applied

/-- The `Emit`s a gain write performs, in order. -/
def gainPlan (g : Half) (f : ChanFile) (scene : Scene) (applied : Gain) : List (Chan × Byte) :=
  if applies (clampGain g) applied = true ∧ scene = .dynamic then
    channels.map fun c => (c, scale (readSlot f c) (clampGain g))
  else []

/-- A gain write in closed form. -/
theorem setGainTo_eq (g : Half) (s : State) :
    setGainTo g s =
      { s with
        gainTrk := clampGain g
        gainRef := appliedGain g s.gainRef
        out := planFile s.out (gainPlan g s.dyn s.scene s.gainRef)
        trace := s.trace ++ planEvents s.out (gainPlan g s.dyn s.scene s.gainRef) } := by
  obtain ⟨ha, e⟩ | ⟨ha, hs, e⟩ | ⟨ha, hs, e⟩ := setGainTo_cases g s
  · rw [e, appliedGain, gainPlan, if_neg (by simp [ha]), if_neg (by simp [ha])]
    simp [planFile, planEvents]
  · rw [e, appliedGain, gainPlan, if_pos ha, if_neg (by simp [hs])]
    simp [planFile, planEvents]
  · rw [e, appliedGain, gainPlan, if_pos ha, if_pos ⟨ha, hs⟩, showDynamic_eq, runPlan_eq]
    rfl

/-- The `Emit`s of `ACTS`, in order. -/
def actsPlan (s : State) : List (Chan × Byte) :=
  if s.scene = .dynamic then (channels.map fun c => (c, 0#8)) ++ staticPlan s (colorAt s) else []

/-- `ACTS` in closed form. -/
theorem activateStatic_eq (s : State) :
    activateStatic s =
      { s with
        scene := .static
        out := planFile s.out (actsPlan s)
        trace := s.trace ++ planEvents s.out (actsPlan s) } := by
  obtain ⟨hs, e⟩ | ⟨hs, e⟩ := activateStatic_cases s
  · rw [e, actsPlan, if_neg (by simp [hs]), ← hs]
    simp [planFile, planEvents]
  · rw [e, actsPlan, if_pos hs, runPlan_eq]

/-- The `Emit`s of `ACTD`, in order. -/
def actdPlan (s : State) : List (Chan × Byte) :=
  if s.scene = .static then
    staticPlan s (fun _ => 0#8) ++ channels.map fun c => (c, scale (dynAt s c) s.gainRef)
  else []

/-- `ACTD` in closed form. -/
theorem activateDynamic_eq (s : State) :
    activateDynamic s =
      { s with
        scene := .dynamic
        out := planFile s.out (actdPlan s)
        trace := s.trace ++ planEvents s.out (actdPlan s) } := by
  obtain ⟨hs, e⟩ | ⟨hs, e⟩ := activateDynamic_cases s
  · rw [e, actdPlan, if_neg (by simp [hs]), ← hs]
    simp [planFile, planEvents]
  · rw [e, actdPlan, if_pos hs, runPlan_eq]

/-- The lists after a push. -/
def pushedLists (k : BitVec 2) (channel : Byte) (lcap : Nat) (p : PerColour (List Chan)) : PerColour (List Chan) :=
  match colourOf k with
  | none => p
  | some colour =>
    if channel.toNat ≤ 127 ∧ (getColour p colour).length ≠ lcap then
      setColour p colour (getColour p colour ++ [chanOf channel])
    else p

/-- A push in closed form. -/
theorem pushChannel_eq (k : BitVec 2) (channel : Byte) (s : State) :
    pushChannel k channel s = { s with list := pushedLists k channel s.params.lcap s.list } := by
  cases hk : colourOf k with
  | none => simp [pushChannel, pushedLists, hk]
  | some colour =>
    cases hr : outOfRange channel
    · have h := outOfRange_false_iff.mp hr
      by_cases hl : (getColour s.list colour).length = s.params.lcap
      · simp [pushChannel, pushedLists, hk, hr, hl, lenAt, listAt]
      · simp [pushChannel, pushedLists, hk, hr, hl, h, lenAt, listAt]
    · have h := outOfRange_true_iff.mp hr
      have h' : ¬channel.toNat ≤ 127 := by omega
      simp [pushChannel, pushedLists, hk, hr, h']

/-- What a channel write leaves (R142). -/
theorem setDmxValue_frame (d : DmxValue) (s : State) :
    setDmxValue d s =
      { s with
        dyn := (setDmxValue d s).dyn
        out := (setDmxValue d s).out
        trace := (setDmxValue d s).trace } := by rw [setDmxValue_eq]

/-- What one `Emit` leaves (R131). -/
theorem emit_frame (c : Chan) (v : Byte) (s : State) :
    emit c v s = { s with out := (emit c v s).out, trace := (emit c v s).trace } := by
  obtain ⟨_, h⟩ | ⟨_, h⟩ := emit_cases c v s <;> (rw [h]; try rfl)

/-- What the sweep that shows the dynamic scene leaves (R137, R158). -/
theorem showDynamic_frame (s : State) :
    showDynamic s = { s with out := (showDynamic s).out, trace := (showDynamic s).trace } := by
  rw [showDynamic_eq, runPlan_eq]

/-- What a gain write leaves (R142). -/
theorem setGainTo_frame (g : Half) (s : State) :
    setGainTo g s =
      { s with
        gainRef := (setGainTo g s).gainRef
        gainTrk := (setGainTo g s).gainTrk
        out := (setGainTo g s).out
        trace := (setGainTo g s).trace } := by
  rw [setGainTo_eq]

/-- What a push leaves (R152). -/
theorem pushChannel_frame (k : BitVec 2) (channel : Byte) (s : State) :
    pushChannel k channel s = { s with list := (pushChannel k channel s).list } := by
  rw [pushChannel_eq]

/-- What `ACTS` leaves (R156). -/
theorem activateStatic_frame (s : State) :
    activateStatic s =
      { s with
        scene := (activateStatic s).scene
        out := (activateStatic s).out
        trace := (activateStatic s).trace } := by
  rw [activateStatic_eq]

/-- What `ACTD` leaves (R158). -/
theorem activateDynamic_frame (s : State) :
    activateDynamic s =
      { s with
        scene := (activateDynamic s).scene
        out := (activateDynamic s).out
        trace := (activateDynamic s).trace } := by
  rw [activateDynamic_eq]

/-- What the poll loop leaves (R171). -/
theorem pollLoop_frame (bytes : List Byte) (s : State) :
    pollLoop bytes s =
      { s with
        dyn := (pollLoop bytes s).dyn
        out := (pollLoop bytes s).out
        trace := (pollLoop bytes s).trace
        pst := (pollLoop bytes s).pst
        ctl := (pollLoop bytes s).ctl
        rxq := (pollLoop bytes s).rxq } := by
  induction bytes generalizing s with
  | nil => rfl
  | cons b l ih =>
    have hf := receiveByte_frame b { s with rxq := l }
    cases hc : receiveByte b { s with rxq := l } with
    | mk u f =>
      rw [hc] at hf
      cases f with
      | true => rw [pollLoop_done hc]; simp only at hf; rw [hf]
      | false => rw [pollLoop_skip hc, ih]; simp only at hf; rw [hf]

/-- A run of one step more goes on from the next state. -/
theorem run_succ {s t : State} (k : Nat) (h : step s = .next t) :
    Host.Core.run core (k + 1) s = Host.Core.run core k t := by
  have h' : core.step s = .next t := h
  simp only [Host.Core.run, h']

theorem isOperation_false_iff (i : Instr) : isOperation i = false ↔ ∃ c v, i = .outevent c v := by
  cases i <;> simp [isOperation]

/-- Every command word is an operation (R86, R92). -/
theorem isOperation_decodeCommand (w : Command) : isOperation (decodeCommand w) = true := by
  unfold decodeCommand
  split <;> rfl

/-- Every received byte is an operation (R72). -/
theorem isOperation_decodeByte (b : Byte) : isOperation (decodeByte b) = true := by
  unfold decodeByte
  split <;> rfl

/-- The step that takes a unit, by what the unit decodes to. -/
theorem step_unit {s : State} {e : Event} {rest : List Event} (hi : s.input = e :: rest)
    (he : ∀ bytes, e ≠ .src bytes) :
    step s =
      match decode e with
      | .ok i => if isOperation i then exec i { s with input := rest } else .refused .outputOnly
      | .error err => .refused (.undecodable err) := by
  unfold step advance
  rw [hi]
  cases e with
  | src bytes => exact absurd rfl (he bytes)
  | _ => rfl

/-- A step that takes a unit performs the operation it decodes to. -/
theorem step_of_decode {s : State} {e : Event} {rest : List Event} {i : Instr} (hi : s.input = e :: rest)
    (hd : decode e = .ok i) (ho : isOperation i = true) : step s = exec i { s with input := rest } := by
  rw [step_unit hi (by rintro bytes rfl; cases hd), hd]
  exact if_pos ho

/-- Everything a step that answers a next state can do (R3, R14): wait, extend the byte source, or perform an
operation. -/
theorem step_cases {s t : State} (h : step s = .next t) :
    (s.input = [] ∧ t = s) ∨
    ∃ e rest, s.input = e :: rest ∧
      ((∃ bytes, e = .src bytes ∧ t = { s with input := rest, rxq := s.rxq ++ bytes }) ∨
        ∃ i, decode e = .ok i ∧ isOperation i = true ∧ exec i { s with input := rest } = .next t) := by
  cases hi : s.input with
  | nil =>
    simp only [step, advance, hi] at h
    cases h
    exact .inl ⟨rfl, rfl⟩
  | cons e rest =>
    refine .inr ⟨e, rest, rfl, ?_⟩
    by_cases hs : ∃ bytes, e = .src bytes
    · obtain ⟨bytes, rfl⟩ := hs
      simp only [step, advance, hi, takeEvent] at h
      cases h
      exact .inl ⟨bytes, rfl, rfl⟩
    · rw [step_unit hi fun bytes hb => hs ⟨bytes, hb⟩] at h
      cases hd : decode e with
      | error err =>
        rw [hd] at h
        cases h
      | ok i =>
        rw [hd] at h
        cases ho : isOperation i
        · simp [ho] at h
        · simp only [ho, if_true] at h
          exact .inr ⟨i, rfl, ho, h⟩

end Sys2Proof.Laws
end

