-- ==== Sys2Proof/Laws/PerInstr.lean ====
section
/-! SUPPORT. For every operation, by constructor: the unit that encodes it decodes to it (30_encoding R70 to R92). -/

namespace Sys2Proof.Laws

open Sys2Proof.Machine

theorem opcodeOf_commandWord (op : Byte) (p : BitVec 24) : opcodeOf (commandWord op p) = op := by
  apply BitVec.eq_of_getLsbD_eq
  intro i hi
  simp only [opcodeOf, commandWord, BitVec.getLsbD_extractLsb', BitVec.getLsbD_append, hi, decide_true, Bool.true_and]
  rw [if_neg (by omega)]
  congr 1
  omega

/-- A field that lies inside the low part of a concatenation is read from that part. -/
theorem extractLsb'_append_low {n m : Nat} (hi : BitVec n) (lo : BitVec m) (start len : Nat) (h : start + len ≤ m) :
    (hi ++ lo).extractLsb' start len = lo.extractLsb' start len := by
  apply BitVec.eq_of_getLsbD_eq
  intro i hl
  simp only [BitVec.getLsbD_extractLsb', BitVec.getLsbD_append, hl, decide_true, Bool.true_and]
  rw [if_pos (by omega)]

/-- A field that lies inside the high part of a concatenation is read from that part. -/
theorem extractLsb'_append_high {n m : Nat} (hi : BitVec n) (lo : BitVec m) (start len : Nat) :
    (hi ++ lo).extractLsb' (m + start) len = hi.extractLsb' start len := by
  apply BitVec.eq_of_getLsbD_eq
  intro i hl
  simp only [BitVec.getLsbD_extractLsb', BitVec.getLsbD_append, hl, decide_true, Bool.true_and]
  rw [if_neg (by omega)]
  congr 1
  omega

theorem extractLsb'_whole {n : Nat} (x : BitVec n) : x.extractLsb' 0 n = x := by
  apply BitVec.eq_of_getLsbD_eq
  intro i hi
  simp [hi]

/-- Bits 15:8 of two bytes side by side, below anything else. -/
theorem extractLsb'_mid {n m k : Nat} (hi : BitVec n) (mid : BitVec k) (lo : BitVec m) :
    (hi ++ mid ++ lo).extractLsb' m k = mid := by
  have h := extractLsb'_append_high (hi ++ mid) lo 0 k
  rw [Nat.add_zero] at h
  rw [h, extractLsb'_append_low _ _ _ _ (by omega), extractLsb'_whole]

theorem extractLsb'_last {n m : Nat} (hi : BitVec n) (lo : BitVec m) : (hi ++ lo).extractLsb' 0 m = lo := by
  rw [extractLsb'_append_low _ _ _ _ (by omega), extractLsb'_whole]

/-- A payload field of a command word is read from the payload. -/
theorem extractLsb'_commandWord (op : Byte) (p : BitVec 24) (start len : Nat) (h : start + len ≤ 24) :
    (commandWord op p).extractLsb' start len = p.extractLsb' start len :=
  extractLsb'_append_low op p start len h

theorem decode_cmd_of_opcode (op : Byte) (p : BitVec 24) (i : Instr)
    (h : opcodeOf (commandWord op p) = op → decodeCommand (commandWord op p) = i) :
    decode (.cmd (commandWord op p)) = .ok i :=
  congrArg Except.ok (h (opcodeOf_commandWord op p))

end Sys2Proof.Laws

namespace Sys2Proof.Laws.RoundTrip

open Sys2Proof.Machine

/-- The operation's unit decodes to the operation. -/
def Statement (i : Instr) : Prop := WellFormed i → decode (encode i) = .ok i

theorem nop : Statement .nop := fun _ => by decide

theorem begin : Statement .begin := fun _ => by decide

theorem setdmx (valid : Bool) (channel value : Byte) : Statement (.setdmx valid channel value) := fun _ =>
  decode_cmd_of_opcode _ _ _ fun h => by
    have h1 := extractLsb'_commandWord 0x10#8 (0#7 ++ BitVec.ofBool valid ++ channel ++ value) 16 1 (by omega)
    have hv : (commandWord 0x10#8 (0#7 ++ BitVec.ofBool valid ++ channel ++ value)).getLsbD 16 = valid := by
      have h2 : (0#7 ++ BitVec.ofBool valid ++ channel ++ value : BitVec 24).extractLsb' 16 1 =
          BitVec.ofBool valid := by
        have a := extractLsb'_append_high (0#7 ++ BitVec.ofBool valid ++ channel) value 8 1
        have b := extractLsb'_append_high (0#7 ++ BitVec.ofBool valid) channel 0 1
        exact a.trans (b.trans (extractLsb'_last 0#7 (BitVec.ofBool valid)))
      have h3 := congrArg (fun x : BitVec 1 => x.getLsbD 0) (h1.trans h2)
      simpa [BitVec.getLsbD_extractLsb'] using h3
    simp only [decodeCommand, h, hv, extractLsb'_commandWord 0x10#8 _ 8 8 (by omega), extractLsb'_commandWord 0x10#8 _ 0 8 (by omega)]
    exact congrArg₂ (Instr.setdmx valid) (extractLsb'_mid _ channel value) (extractLsb'_last _ value)

theorem setcc (channel value : Byte) : Statement (.setcc channel value) := fun _ =>
  decode_cmd_of_opcode _ _ _ fun h => by
    simp only [decodeCommand, h, extractLsb'_commandWord 0x11#8 _ 8 8 (by omega),
      extractLsb'_commandWord 0x11#8 _ 0 8 (by omega)]
    exact congrArg₂ Instr.setcc (extractLsb'_mid _ channel value) (extractLsb'_last _ value)

theorem setgain (gain : Half) : Statement (.setgain gain) := fun _ =>
  decode_cmd_of_opcode _ _ _ fun h => by
    simp only [decodeCommand, h, extractLsb'_commandWord 0x20#8 _ 0 16 (by omega)]
    exact congrArg Instr.setgain (extractLsb'_last _ gain)

theorem setatt (raw : Half) : Statement (.setatt raw) := fun _ =>
  decode_cmd_of_opcode _ _ _ fun h => by
    simp only [decodeCommand, h, extractLsb'_commandWord 0x21#8 _ 0 16 (by omega)]
    exact congrArg Instr.setatt (extractLsb'_last _ raw)

theorem sclr : Statement .sclr := fun _ => by decide

theorem spush (colour : BitVec 2) (channel : Byte) : Statement (.spush colour channel) := fun _ =>
  decode_cmd_of_opcode _ _ _ fun h => by
    simp only [decodeCommand, h, extractLsb'_commandWord 0x31#8 _ 8 2 (by omega),
      extractLsb'_commandWord 0x31#8 _ 0 8 (by omega)]
    exact congrArg₂ Instr.spush (extractLsb'_mid _ colour channel) (extractLsb'_last _ channel)

theorem srgb (red green blue : Byte) : Statement (.srgb red green blue) := fun _ =>
  decode_cmd_of_opcode _ _ _ fun h => by
    simp only [decodeCommand, h, extractLsb'_commandWord 0x32#8 _ 16 8 (by omega),
      extractLsb'_commandWord 0x32#8 _ 8 8 (by omega), extractLsb'_commandWord 0x32#8 _ 0 8 (by omega)]
    have hr : (red ++ green ++ blue : BitVec 24).extractLsb' 16 8 = red := by
      have a := extractLsb'_append_high (red ++ green) blue 8 8
      have b := extractLsb'_append_high red green 0 8
      exact a.trans (b.trans (extractLsb'_whole red))
    have hg : (red ++ green ++ blue : BitVec 24).extractLsb' 8 8 = green := extractLsb'_mid red green blue
    have hb : (red ++ green ++ blue : BitVec 24).extractLsb' 0 8 = blue := extractLsb'_last _ blue
    exact congr (congrArg₂ Instr.srgb hr hg) hb

theorem acts : Statement .acts := fun _ => by decide

theorem actd : Statement .actd := fun _ => by decide

theorem poll : Statement .poll := fun _ => by decide

theorem rxbyte (b : Byte) : Statement (.rxbyte b) := fun h => by
  have h' : wellFormed (.rxbyte b) = true := h
  have hm : hasMarker b = false := by simpa [wellFormed, hasMarker] using h'
  simp [encode, decode, decodeByte, hm]

theorem rxbyteStatus (n : MidiChan) : Statement (.rxbyteStatus n) := fun _ => by
  have hm : hasMarker (ccMarker ++ n) = true := by
    have := extractLsb'_append_high ccMarker n 0 4
    simpa [hasMarker] using this.trans (extractLsb'_whole ccMarker)
  have hn : (ccMarker ++ n : BitVec 8).extractLsb' 0 4 = n := extractLsb'_last ccMarker n
  simp only [encode, decode, decodeByte]
  rw [if_pos hm, hn]

theorem ccframe (n : MidiChan) (c v : Byte) : Statement (.ccframe n c v) := fun _ => by
  have hs (start len : Nat) : (ccMarker ++ n ++ c ++ v : BitVec 24).extractLsb' (16 + start) len =
      (ccMarker ++ n : BitVec 8).extractLsb' start len := by
    have a := extractLsb'_append_high (ccMarker ++ n ++ c) v (8 + start) len
    have b := extractLsb'_append_high (ccMarker ++ n) c start len
    rw [← Nat.add_assoc] at a
    exact a.trans b
  have hm : hasMarker ((ccMarker ++ n ++ c ++ v : BitVec 24).extractLsb' 16 8) = true := by
    have a := (hs 0 8).trans (extractLsb'_whole (ccMarker ++ n))
    have b := (extractLsb'_append_high ccMarker n 0 4).trans (extractLsb'_whole ccMarker)
    have a' : (ccMarker ++ n ++ c ++ v : BitVec 24).extractLsb' 16 8 = ccMarker ++ n := a
    rw [a']
    simpa [hasMarker] using b
  have hn : (ccMarker ++ n ++ c ++ v : BitVec 24).extractLsb' 16 4 = n := (hs 0 4).trans (extractLsb'_last ccMarker n)
  have hc : (ccMarker ++ n ++ c ++ v : BitVec 24).extractLsb' 8 8 = c := extractLsb'_mid _ c v
  have hv : (ccMarker ++ n ++ c ++ v : BitVec 24).extractLsb' 0 8 = v := extractLsb'_last _ v
  simp only [encode, decode, decodeFrame]
  rw [if_pos hm, hn, hc, hv]

theorem outevent (c : Chan) (v : Byte) : Statement (.outevent c v) := fun _ => by
  have hb : (0#1 ++ c ++ v : BitVec 16).getLsbD 15 = false := by
    have a := (extractLsb'_append_high (0#1 ++ c) v 7 1).trans (extractLsb'_append_high 0#1 c 0 1)
    have b := congrArg (fun x : BitVec 1 => x.getLsbD 0) (a.trans (extractLsb'_whole 0#1))
    simpa [BitVec.getLsbD_extractLsb'] using b
  have hc : (0#1 ++ c ++ v : BitVec 16).extractLsb' 8 7 = c := extractLsb'_mid 0#1 c v
  have hv : (0#1 ++ c ++ v : BitVec 16).extractLsb' 0 8 = v := extractLsb'_last _ v
  simp only [encode, decode, decodeOutput]
  rw [if_neg (by rw [hb]; decide), hc, hv]

theorem reset (ch : MidiChan) : Statement (.reset ch) := fun _ => rfl

end Sys2Proof.Laws.RoundTrip
end

