-- ==== Sys2Proof/Certificates/Slice0/Obligations.lean ====
section
/-! DEFINITION. The statements for the provers. Each says which rules of spec/ it rests on, and where a clause is the
spec's own decision (92_eei_decisions) or this model's choice (notes/assumptions), it says so. -/

open Sys2Proof Sys2Proof.Machine

/-! ### Encodings -/

/-- 30_encoding R70 to R84 with decisions D2, D4, D16: every operation in the decoder's spelling is read back from
the unit that carries it, for every value of every operand. -/
def Obligations.DecodeEncodeAgree : Prop := ∀ i : Instr, WellFormed i → decode (encode i) = .ok i

/-- What the decoder answers is in its own canonical spelling (log 11). -/
def Obligations.DecodedOperationIsWellFormed : Prop :=
  ∀ (e : Event) (i : Instr), decode e = .ok i → WellFormed i

/-- R75 to R81, R92 (decision D2): the opcode is `w[31:24]`, and each operand is the field its rule names, said here by
division and remainder on the word's number. -/
def Obligations.CommandFieldsAreThoseOfTheTable : Prop :=
  ∀ w : Command,
    let n := w.toNat
    let op := n / 2 ^ 24
    let byte (k : Nat) : Byte := BitVec.ofNat 8 (n / 2 ^ k)
    (op = 0x00 → decode (.cmd w) = .ok .nop) ∧
    (op = 0x01 → decode (.cmd w) = .ok .begin) ∧
    (op = 0x10 → decode (.cmd w) = .ok (.setdmx (n / 2 ^ 16 % 2 == 1) (byte 8) (byte 0))) ∧
    (op = 0x11 → decode (.cmd w) = .ok (.setcc (byte 8) (byte 0))) ∧
    (op = 0x20 → decode (.cmd w) = .ok (.setgain (BitVec.ofNat 16 n))) ∧
    (op = 0x21 → decode (.cmd w) = .ok (.setatt (BitVec.ofNat 16 n))) ∧
    (op = 0x30 → decode (.cmd w) = .ok .sclr) ∧
    (op = 0x31 → decode (.cmd w) = .ok (.spush (BitVec.ofNat 2 (n / 2 ^ 8)) (byte 0))) ∧
    (op = 0x32 → decode (.cmd w) = .ok (.srgb (byte 16) (byte 8) (byte 0))) ∧
    (op = 0x40 → decode (.cmd w) = .ok .acts) ∧
    (op = 0x41 → decode (.cmd w) = .ok .actd) ∧
    (op = 0x50 → decode (.cmd w) = .ok .poll)

/-- R86 (decision D3): a word with a reserved opcode decodes as `NOP`, and performing it changes nothing. -/
def Obligations.ReservedOpcodeIsPerformedAsNop : Prop :=
  ∀ (w : Command) (s : State) (rest : List Event), w.toNat / 2 ^ 24 ∉ assignedOpcodes →
    decode (.cmd w) = .ok .nop ∧
    (s.live = true → s.input = .cmd w :: rest → step s = .next { s with input := rest })

/-- R87 (decision D3): two words with one opcode that agree on the payload bits its rule names decode alike. -/
def Obligations.ReservedPayloadBitsAreIgnored : Prop :=
  ∀ w u : Command, w.toNat / 2 ^ 24 = u.toNat / 2 ^ 24 →
    w &&& namedPayload (w.toNat / 2 ^ 24) = u &&& namedPayload (w.toNat / 2 ^ 24) →
    decode (.cmd w) = decode (.cmd u)

/-- Command words of 95_test_vectors V9 and of its programs decode to what those tables say; a byte, a frame, an output
event and a reset laid out from R70, R72, R83, R84, and words of the opcodes of R76 the tables do not use, decode to what
their rules give. That the byte `0xB3` is spelled `RXBYTE.STATUS 3`, and not `RXBYTE`, is the model's choice (log 11). -/
def Obligations.SpecWordsDecode : Prop :=
  decode (.cmd 0x00FFFFFF#32) = .ok .nop ∧
  decode (.cmd 0xFF123456#32) = .ok .nop ∧
  decode (.cmd 0x01000000#32) = .ok .begin ∧
  decode (.cmd 0x10FE05C8#32) = .ok (.setdmx false 5#8 200#8) ∧
  decode (.cmd 0x100105C8#32) = .ok (.setdmx true 5#8 200#8) ∧
  decode (.cmd 0x11000A64#32) = .ok (.setcc 10#8 100#8) ∧
  decode (.cmd 0x20FF0200#32) = .ok (.setgain 512#16) ∧
  decode (.cmd 0x210003FF#32) = .ok (.setatt 1023#16) ∧
  decode (.cmd 0x30000000#32) = .ok .sclr ∧
  decode (.cmd 0x3100FD03#32) = .ok (.spush 1#2 3#8) ∧
  decode (.cmd 0x32FF8007#32) = .ok (.srgb 255#8 128#8 7#8) ∧
  decode (.cmd 0x4000BEEF#32) = .ok .acts ∧
  decode (.cmd 0x41000000#32) = .ok .actd ∧
  decode (.cmd 0x50000000#32) = .ok .poll ∧
  decode (.rx 0x42#8) = .ok (.rxbyte 0x42#8) ∧
  decode (.rx 0xB3#8) = .ok (.rxbyteStatus 3#4) ∧
  decode (.frame 0xB00102#24) = .ok (.ccframe 0#4 1#8 2#8) ∧
  decode (.outp 0x0104#16) = .ok (.outevent 1#7 4#8) ∧
  decode (.rst 2#4) = .ok (.reset 2#4)

/-- R70 to R72, R83, R84 (decisions D4, D16; the spelling of a marked byte is log 11, the refusals are log 18): bytes,
frames, output events and resets, said by division and remainder. -/
def Obligations.OtherUnitsDecode : Prop :=
  (∀ b : Byte,
    (b.toNat / 16 = 0xB → decode (.rx b) = .ok (.rxbyteStatus (BitVec.ofNat 4 b.toNat))) ∧
    (b.toNat / 16 ≠ 0xB → decode (.rx b) = .ok (.rxbyte b))) ∧
  (∀ f : BitVec 24,
    (f.toNat / 2 ^ 20 = 0xB → decode (.frame f) =
      .ok (.ccframe (BitVec.ofNat 4 (f.toNat / 2 ^ 16)) (BitVec.ofNat 8 (f.toNat / 2 ^ 8)) (BitVec.ofNat 8 f.toNat))) ∧
    (f.toNat / 2 ^ 20 ≠ 0xB → decode (.frame f) = .error .noFrameMarker)) ∧
  (∀ e : Half,
    (e.toNat < 2 ^ 15 → decode (.outp e) = .ok (.outevent (BitVec.ofNat 7 (e.toNat / 2 ^ 8)) (BitVec.ofNat 8 e.toNat))) ∧
    (2 ^ 15 ≤ e.toNat → decode (.outp e) = .error .noOutputChannel)) ∧
  (∀ ch : MidiChan, decode (.rst ch) = .ok (.reset ch))

/-! ### Steps -/

/-- R3, R14 (the model's event list is log 1): the next unit issued is removed and the operation it decodes to is
performed; a unit of the output format is refused (log 9); and a step that answers a next state has waited (log 1), or
extended the byte source (R52), or performed an operation other than `OUTEVENT`: no other operation exists. -/
def Obligations.StepRunsTheDecodedOperation : Prop :=
  (∀ (s : State) (e : Event) (rest : List Event) (i : Instr), s.input = e :: rest → decode e = .ok i →
    (∀ c v, i ≠ .outevent c v) → step s = exec i { s with input := rest }) ∧
  (∀ (s : State) (e : Event) (rest : List Event) (c : Chan) (v : Byte), s.input = e :: rest →
    decode e = .ok (.outevent c v) → step s = .refused .outputOnly) ∧
  (∀ s t : State, step s = .next t →
    (s.input = [] ∧ t = s) ∨
    ∃ e rest, s.input = e :: rest ∧
      ((∃ bytes, e = .src bytes ∧ t = { s with input := rest, rxq := s.rxq ++ bytes }) ∨
        ∃ i, decode e = .ok i ∧ (∀ c v, i ≠ .outevent c v) ∧ exec i { s with input := rest } = .next t))

/-- R52 and log 1, the model's choice: bytes issued for the byte source are appended to `RXQ` and nothing else
happens; with nothing issued the core waits. -/
def Obligations.StepFeedsTheByteSourceOrWaits : Prop :=
  (∀ (s : State) (bytes : List Byte) (rest : List Event), s.input = .src bytes :: rest →
    step s = .next { s with input := rest, rxq := s.rxq ++ bytes }) ∧
  (∀ s : State, s.input = [] → step s = .next s)

/-- R180, for every row of the table: performed after a `RESET` (log 8) it gives a next state, `OUTEVENT` (log 9), the
frame in one step (log 10) and the marked byte (log 11) among them; no step faults; and a command word, a received byte
and a reset, whatever their bits, are performed by the step that takes them (a 24-bit or 16-bit unit can be refused,
logs 9 and 18). -/
def Obligations.EveryOperationCompletes : Prop :=
  (∀ (i : Instr) (s : State), s.live = true → ∃ t, exec i s = .next t) ∧
  (∀ (s : State) (f : Fault), step s ≠ .fault f) ∧
  (∀ (s : State) (e : Event) (rest : List Event), s.live = true → s.input = e :: rest →
    ((∃ w, e = .cmd w) ∨ (∃ b, e = .rx b) ∨ (∃ ch, e = .rst ch)) → ∃ t, step s = .next t)

/-! ### Reset -/

/-- R40: the state after reset. The zeroes are the spec's decision D8; `CFG_CH` 0 (log 5), the default parameters
(log 4) and the empty boundary (logs 1, 3, 15) are the model's choices. -/
def Obligations.ResetStateHasTheTableValues : Prop :=
  let s := State.reset
  (∀ c, dynAt s c = 0#8 ∧ outAt s c = 0#8) ∧ s.pst = .waitStatus ∧ s.ctl = 0#8 ∧ s.cfgCh = 0#4 ∧
  s.gainRef.toNat = 1024 ∧ s.gainTrk.toNat = 1024 ∧ s.scene = .dynamic ∧
  (∀ k, colorAt s k = 0#8 ∧ lenAt s k = 0) ∧
  s.rxq = [] ∧ s.trace = [] ∧ s.input = [] ∧ s.params.lcap = 16 ∧ s.params.rawMax = 1023 ∧ s.live = true

/-- R200 (decisions D8, D16): the reset event, from any state, live or not: every register at R40's value, `CFG_CH`
the operand, no event, and the byte source, the parameters and the events to come untouched. -/
def Obligations.ResetSetsEveryRegister : Prop :=
  ∀ (ch : MidiChan) (s : State), ∃ t, exec (.reset ch) s = .next t ∧
    (∀ c, dynAt t c = 0#8 ∧ outAt t c = 0#8) ∧ t.pst = .waitStatus ∧ t.ctl = 0#8 ∧ t.cfgCh = ch ∧
    t.gainRef.toNat = 1024 ∧ t.gainTrk.toNat = 1024 ∧ t.scene = .dynamic ∧
    (∀ k, colorAt t k = 0#8 ∧ lenAt t k = 0) ∧ t.live = true ∧
    t.rxq = s.rxq ∧ t.trace = s.trace ∧ t.input = s.input ∧ t.params = s.params

/-- R196, R201 with U5 of 93 (the refusal is log 8): before the first `RESET` no other operation is performed. -/
def Obligations.NothingRunsBeforeReset : Prop :=
  ∀ (i : Instr) (s : State), s.live = false → isReset i = false → exec i s = .refused .beforeReset

/-! ### Functions -/

/-- R104: the two laws of the mapper, and that each output depends on its own input only; the result is always
valid. -/
def Obligations.MapperLaws : Prop :=
  ∀ c v : Byte,
    (mapCc c v).valid = true ∧
    (v.toNat ≤ 127 → (mapCc c v).value.toNat = 2 * v.toNat) ∧
    (128 ≤ v.toNat → (mapCc c v).value.toNat = 254) ∧
    (c.toNat ≤ 127 → (mapCc c v).channel = c) ∧
    (128 ≤ c.toNat → (mapCc c v).channel.toNat = 127) ∧
    (∀ d, (mapCc d v).value = (mapCc c v).value) ∧
    (∀ w, (mapCc c w).channel = (mapCc c v).channel)

/-- R100 to R102 (the fields of the invalid default are decision D24): an explicit pair is valid, the default is not,
and equality looks at channel and value only. -/
def Obligations.DmxValueValidityAndEquality : Prop :=
  (∀ c v, dvValid (dv c v) = true) ∧ dvValid dvInvalid = false ∧
  (∀ a b : DmxValue, dvEqual a b = true ↔ a.channel = b.channel ∧ a.value = b.value) ∧
  dvEqual dvInvalid (dv 0#8 0#8) = true

/-- R130 (exactness and floor are decision D18): the value of `Scale` for every gain that is ever held, and its
laws. -/
def Obligations.ScaleLaws : Prop :=
  ∀ (v : Byte) (g : Gain), g.toNat ≤ 1024 →
    (scale v g).toNat = v.toNat * g.toNat / 1024 ∧ (scale v g).toNat ≤ v.toNat ∧
    scale v 1024#11 = v ∧ scale v 0#11 = 0#8 ∧ scale 0#8 g = 0#8 ∧
    (∀ w : Byte, v.toNat ≤ w.toNat → (scale v g).toNat ≤ (scale w g).toNat) ∧
    (∀ h : Gain, h.toNat ≤ 1024 → g.toNat ≤ h.toNat → (scale v g).toNat ≤ (scale v h).toNat)

/-- R131: `Emit` does nothing on a value already shown; otherwise it writes that one slot of `OUT` and delivers one
event. -/
def Obligations.EmitFiresOnChangeOnly : Prop :=
  ∀ (c : Chan) (v : Byte) (s : State),
    (outAt s c = v → emit c v s = s) ∧
    (outAt s c ≠ v →
      (∀ d, outAt (emit c v s) d = if d = c then v else outAt s d) ∧
      (emit c v s).trace = s.trace ++ [{ channel := byteOfChan c, value := v }] ∧
      emit c v s = { s with out := (emit c v s).out, trace := (emit c v s).trace })

/-! ### Results of the operations -/

/-- R174, R175: `NOP` and `BEGIN` change no state and produce no event (of the core; opening the byte source is the
environment's, log 21). -/
def Obligations.NopAndBeginChangeNothing : Prop :=
  ∀ s : State, s.live = true → exec .nop s = .next s ∧ exec .begin s = .next s

/-- R133: an invalid DmxValue and a channel above 127 are discarded whole. -/
def Obligations.SetdmxDiscardsInvalidAndOutOfRange : Prop :=
  ∀ (valid : Bool) (channel value : Byte) (s : State), s.live = true → (valid = false ∨ 128 ≤ channel.toNat) →
    exec (.setdmx valid channel value) s = .next s

/-- R133 with decisions D7, D9, D25: in the dynamic scene the raw value is stored, the channel shows the value scaled
by `GAIN_REF`, one event tells of it exactly if it changed, and nothing else changes. -/
def Obligations.SetdmxInDynamicSceneShowsTheScaledValue : Prop :=
  ∀ (c : Chan) (v : Byte) (s : State), s.live = true → s.scene = .dynamic →
    ∃ t, exec (.setdmx true (byteOfChan c) v) s = .next t ∧
      (∀ d, dynAt t d = if d = c then v else dynAt s d) ∧
      (∀ d, outAt t d = if d = c then scale v s.gainRef else outAt s d) ∧
      t.trace = s.trace ++ (if outAt s c = scale v s.gainRef then []
        else [{ channel := byteOfChan c, value := scale v s.gainRef }]) ∧
      t = { s with dyn := t.dyn, out := t.out, trace := t.trace }

/-- R133 with decisions D7, D25: in the static scene the raw value is stored and nothing else changes. -/
def Obligations.SetdmxInStaticSceneIsPending : Prop :=
  ∀ (c : Chan) (v : Byte) (s : State), s.live = true → s.scene = .static →
    ∃ t, exec (.setdmx true (byteOfChan c) v) s = .next t ∧
      (∀ d, dynAt t d = if d = c then v else dynAt s d) ∧ t = { s with dyn := t.dyn }

/-- R135: `SETCC` is `SETDMX` of the mapped pair; it is never discarded, it stores the mapped value on the clamped
channel, and it produces at most one event. -/
def Obligations.SetccWritesTheMappedPair : Prop :=
  ∀ (c v : Byte) (s : State), s.live = true →
    let c' := min c.toNat 127
    let v' : Byte := BitVec.ofNat 8 (if v.toNat ≤ 127 then v.toNat * 2 else 254)
    exec (.setcc c v) s = exec (.setdmx true (BitVec.ofNat 8 c') v') s ∧
    ∃ t, exec (.setcc c v) s = .next t ∧ dynAt t (BitVec.ofNat 7 c') = v' ∧
      t.trace.length ≤ s.trace.length + 1

/-- R51: what each path does with an index above 127: `SETDMX` and `SPUSH` discard it, `SETCC` and the controller number
of a frame are taken as 127, and no other slot is touched. -/
def Obligations.RangePoliciesStayDistinct : Prop :=
  ∀ (channel value : Byte) (valid : Bool) (k : BitVec 2) (s : State), s.live = true → 128 ≤ channel.toNat →
    exec (.setdmx valid channel value) s = .next s ∧
    exec (.spush k channel) s = .next s ∧
    exec (.setcc channel value) s = exec (.setcc 127#8 value) s ∧
    (∃ t, exec (.setcc channel value) s = .next t ∧ dynAt t 127#7 = (mapCc channel value).value ∧
      ∀ d, d ≠ 127#7 → dynAt t d = dynAt s d ∧ outAt t d = outAt s d) ∧
    ∃ t, exec (.rxbyte value) { s with pst := .haveChannel, ctl := channel } = .next t ∧
      dynAt t 127#7 = (mapCc channel value).value ∧ ∀ d, d ≠ 127#7 → dynAt t d = dynAt s d ∧ outAt t d = outAt s d

/-- R137, R138 with decisions D9, D10: a gain at most 5 from the last applied one changes `GAIN_TRK` only. -/
def Obligations.SetgainInsideTheDeadZoneIsTrackedOnly : Prop :=
  ∀ (g : Half) (s : State), s.live = true → absDiff (min g.toNat 1024) s.gainRef.toNat ≤ 5 →
    ∃ t, exec (.setgain g) s = .next t ∧ t.gainTrk.toNat = min g.toNat 1024 ∧ t = { s with gainTrk := t.gainTrk }

/-- R137 with decisions D9, D10, D12: a gain 6 or more away, in the dynamic scene, becomes the factor and the
reference, every channel shows its rescaled value, and the events are one per changed channel, ascending. -/
def Obligations.SetgainOutsideTheDeadZoneRescales : Prop :=
  ∀ (g : Half) (s : State), s.live = true → s.scene = .dynamic → 6 ≤ absDiff (min g.toNat 1024) s.gainRef.toNat →
    ∃ t, exec (.setgain g) s = .next t ∧ t.gainRef.toNat = min g.toNat 1024 ∧ t.gainTrk = t.gainRef ∧
      (∀ c, outAt t c = scale (dynAt s c) t.gainRef) ∧
      t.trace = s.trace ++ sweepEvents (fun c => scale (dynAt s c) t.gainRef) s.out ∧
      t = { s with gainRef := t.gainRef, gainTrk := t.gainTrk, out := t.out, trace := t.trace }

/-- R140 (decision D13): the same gain in the static scene is applied silently. -/
def Obligations.SetgainInStaticSceneIsSilent : Prop :=
  ∀ (g : Half) (s : State), s.live = true → s.scene = .static → 6 ≤ absDiff (min g.toNat 1024) s.gainRef.toNat →
    ∃ t, exec (.setgain g) s = .next t ∧ t.gainRef.toNat = min g.toNat 1024 ∧ t.gainTrk = t.gainRef ∧
      t = { s with gainRef := t.gainRef, gainTrk := t.gainTrk }

/-- R173 (decision D15), for every `RAW_MAX` of R10's domain: `SETATT` is `SETGAIN` of the mapped reading, which
reaches both ends of the gain range. -/
def Obligations.SetattMapsTheReadingToAGain : Prop :=
  ∀ (raw : Half) (s : State), s.live = true → 1 ≤ s.params.rawMax →
    let g := min 1024 (raw.toNat * 1024 / s.params.rawMax)
    exec (.setatt raw) s = exec (.setgain (BitVec.ofNat 16 g)) s ∧
    (raw.toNat = 0 → g = 0) ∧ (s.params.rawMax ≤ raw.toNat → g = 1024) ∧
    ∃ t, exec (.setatt raw) s = .next t ∧ t.gainTrk.toNat = g

/-- R151 (decision D20): `SCLR` empties the lists and does nothing else. -/
def Obligations.SclrEmptiesTheLists : Prop :=
  ∀ s : State, s.live = true → ∃ t, exec .sclr s = .next t ∧ (∀ k, listAt t k = [] ∧ lenAt t k = 0) ∧
    t = { s with list := t.list }

/-- R152 (decisions D14, D20): a push in range to a list with room appends one entry to that list alone. -/
def Obligations.SpushAppendsToItsList : Prop :=
  ∀ (k : BitVec 2) (colour : Colour) (c : Chan) (s : State), s.live = true → colourOf k = some colour →
    lenAt s colour < s.params.lcap →
    ∃ t, exec (.spush k (byteOfChan c)) s = .next t ∧ listAt t colour = listAt s colour ++ [c] ∧
      lenAt t colour = lenAt s colour + 1 ∧ (∀ j, j ≠ colour → listAt t j = listAt s j) ∧ t = { s with list := t.list }

/-- R81, R152 (decisions D3, D14): colour 3, a channel above 127 and a full list discard the push; the colours 0, 1, 2
are red, green, blue. -/
def Obligations.SpushDiscards : Prop :=
  (colourOf 0#2 = some .red ∧ colourOf 1#2 = some .green ∧ colourOf 2#2 = some .blue) ∧
  ∀ (k : BitVec 2) (channel : Byte) (s : State), s.live = true →
    (k = 3#2 ∨ 128 ≤ channel.toNat ∨ ∃ colour, colourOf k = some colour ∧ lenAt s colour = s.params.lcap) →
    exec (.spush k channel) s = .next s

/-- R153 (decision D20): `SRGB` writes the three colours and nothing else. -/
def Obligations.SrgbSetsTheColours : Prop :=
  ∀ (r g b : Byte) (s : State), s.live = true → ∃ t, exec (.srgb r g b) s = .next t ∧
    colorAt t .red = r ∧ colorAt t .green = g ∧ colorAt t .blue = b ∧ t = { s with color := t.color }

/-- R156, R157 (g) with decisions D11, D12, D13: from the dynamic scene, first one event `(c, 0)` per lit channel,
ascending, then the colours in red, green, blue and list order from a dark file; afterwards every channel shows the
last colour that lists it, or 0. -/
def Obligations.ActsBlacksOutThenLightsTheStaticScene : Prop :=
  ∀ s : State, s.live = true → s.scene = .dynamic →
    ∃ t, exec .acts s = .next t ∧ t.scene = .static ∧ (∀ c, outAt t c = staticValue s c) ∧
      t.trace = s.trace ++ sweepEvents (fun _ => 0#8) s.out ++
        planEvents (Vector.replicate 128 0#8) (staticPlan s (colorAt s)) ∧
      t = { s with scene := t.scene, out := t.out, trace := t.trace }

/-- R158, R159 (d) with decisions D9, D11, D12: from the static scene, first one event `(c, 0)` per lit list entry, in
red, green, blue and list order, then the channels whose scaled value differs, ascending; afterwards every channel
shows its scaled dynamic value, whatever it showed before. -/
def Obligations.ActdRestoresTheDynamicScene : Prop :=
  ∀ s : State, s.live = true → s.scene = .static →
    let dark := planEvents s.out (staticPlan s fun _ => 0#8)
    ∃ t, exec .actd s = .next t ∧ t.scene = .dynamic ∧ (∀ c, outAt t c = scale (dynAt s c) s.gainRef) ∧
      t.trace = s.trace ++ dark ++ sweepEvents (fun c => scale (dynAt s c) s.gainRef) (applyEvents s.out dark) ∧
      t = { s with scene := t.scene, out := t.out, trace := t.trace }

/-- R160: a second `ACTS`, or a second `ACTD`, does nothing, and the test is on `SCENE` alone. -/
def Obligations.SceneSwitchIsIdempotent : Prop :=
  (∀ s t : State, exec .acts s = .next t → exec .acts t = .next t) ∧
  (∀ s t : State, exec .actd s = .next t → exec .actd t = .next t) ∧
  (∀ s : State, s.live = true → s.scene = .static → exec .acts s = .next s) ∧
  (∀ s : State, s.live = true → s.scene = .dynamic → exec .actd s = .next s)

/-- R112: while waiting for a status byte, the one byte `0xB0 + CFG_CH` moves the parser to `HAVE_STATUS`; the other
255 change nothing. -/
def Obligations.OnlyOneByteStartsAFrame : Prop :=
  ∀ (b : Byte) (s : State), s.live = true → s.pst = .waitStatus →
    (b.toNat = 0xB0 + s.cfgCh.toNat → exec (.rxbyte b) s = .next { s with pst := .haveStatus }) ∧
    (b.toNat ≠ 0xB0 + s.cfgCh.toNat → exec (.rxbyte b) s = .next s)

/-- R113 to R115 with decision D4: in the other two states every byte is captured, unchecked: as the controller
number, and then as the value, which completes the frame and performs its `SETCC`. -/
def Obligations.BytesInsideAFrameAreCaptured : Prop :=
  ∀ (b : Byte) (s : State), s.live = true →
    (s.pst = .haveStatus → exec (.rxbyte b) s = .next { s with ctl := b, pst := .haveChannel }) ∧
    (s.pst = .haveChannel → exec (.rxbyte b) s = exec (.setcc s.ctl b) { s with pst := .waitStatus } ∧
      ∃ t, exec (.rxbyte b) s = .next t ∧ t.pst = .waitStatus ∧ t.ctl = s.ctl)

/-- R72, R112: a marked byte is received as any byte is; while waiting for a status byte it starts a frame exactly if
its channel is `CFG_CH` (the row of its own is log 11). -/
def Obligations.StatusByteRow : Prop :=
  ∀ (n : MidiChan) (s : State),
    exec (.rxbyteStatus n) s = exec (.rxbyte (BitVec.ofNat 8 (0xB0 + n.toNat))) s ∧
    (s.live = true → s.pst = .waitStatus →
      exec (.rxbyteStatus n) s = .next (if n = s.cfgCh then { s with pst := .haveStatus } else s))

/-- R119: from `WAIT_STATUS` the three bytes of a frame for `CFG_CH`, whatever the last two are, perform exactly one
`SETCC` of them and end in `WAIT_STATUS`. -/
def Obligations.MatchingFramePerformsItsSetcc : Prop :=
  ∀ (c v : Byte) (s : State), s.live = true → s.pst = .waitStatus →
    exec (.ccframe s.cfgCh c v) s = exec (.setcc c v) { s with ctl := c } ∧
    ∃ t, exec (.ccframe s.cfgCh c v) s = .next t ∧ t.pst = .waitStatus ∧ t.ctl = c

/-- R117: a well-formed frame for another MIDI channel changes nothing. -/
def Obligations.FrameForAnotherChannelIsDropped : Prop :=
  ∀ (n : MidiChan) (c v : Byte) (s : State), s.live = true → s.pst = .waitStatus → n ≠ s.cfgCh →
    c.toNat ≤ 127 → v.toNat ≤ 127 → exec (.ccframe n c v) s = .next s

/-- R90 (decision D26; the one-step frame is log 10): the three bytes issued one after another do what the frame does
in one step, from any parser state. -/
def Obligations.FrameIsItsThreeBytes : Prop :=
  ∀ (n : MidiChan) (c v : Byte) (s : State) (rest : List Event), s.live = true →
    Host.Core.run core 3 { s with input := frameEvents n c v ++ rest } = exec (.ccframe n c v) { s with input := rest }

/-- R83, R131 (giving the row of the output event this meaning is the model's, log 9): `OUTEVENT c v` leaves channel `c` showing `v`,
delivers the event exactly if that is a change, and does nothing else. -/
def Obligations.OutputEventIsAnEmit : Prop :=
  ∀ (c : Chan) (v : Byte) (s : State), s.live = true →
    ∃ t, exec (.outevent c v) s = .next t ∧ (∀ d, outAt t d = if d = c then v else outAt s d) ∧
      t.trace = s.trace ++ (if outAt s c = v then [] else [{ channel := byteOfChan c, value := v }]) ∧
      t = { s with out := t.out, trace := t.trace }

/-- R171, R172 (decision D6): a poll takes a prefix of the waiting bytes, receives them in order, leaves the rest in order,
completes at most one frame, stops only at a completed frame or an empty source, and takes no byte after the frame; of an empty source it takes
nothing and changes nothing. -/
def Obligations.PollReceivesUpToOneFrame : Prop :=
  ∀ s : State, s.live = true → ∃ t taken rest n,
    exec .poll s = .next t ∧ s.rxq = taken ++ rest ∧ t.rxq = rest ∧ feed taken { s with rxq := rest } = (t, n) ∧
    n ≤ 1 ∧ (n = 0 → rest = []) ∧ (n = 1 → (feed taken.dropLast { s with rxq := rest }).2 = 0)

/-- R172 (b), (d), (e) (decision D6): skippable bytes before a frame do not end the poll, the frame does, and what
follows it stays. -/
def Obligations.PollSkipsNoiseToTheFirstFrame : Prop :=
  ∀ (s : State) (noise rest : List Byte) (c v : Byte), s.live = true → s.pst = .waitStatus →
    (∀ b ∈ noise, b.toNat ≠ 0xB0 + s.cfgCh.toNat) →
    s.rxq = noise ++ BitVec.ofNat 8 (0xB0 + s.cfgCh.toNat) :: c :: v :: rest →
    exec .poll s = exec (.setcc c v) { s with ctl := c, rxq := rest } ∧ ∃ t, exec .poll s = .next t ∧ t.rxq = rest

/-- R116 (decision D5): a poll that runs dry before a frame completes, and a poll of what arrives later, together do
what one poll of all the bytes does: nothing is dropped, nothing read twice. -/
def Obligations.PartialFrameResumesInALaterPoll : Prop :=
  ∀ (s t : State) (early late : List Byte), s.live = true → (feed early s).2 = 0 →
    exec .poll { s with rxq := early } = .next t →
    exec .poll { t with rxq := late } = exec .poll { s with rxq := early ++ late }

/-- R35 (a), R158, R217: a write made in the static scene is shown by the next `ACTD`, scaled. -/
def Obligations.PendingWriteSurfacesAtActd : Prop :=
  ∀ (c : Chan) (v : Byte) (s t : State), s.live = true → s.scene = .static →
    exec (.setdmx true (byteOfChan c) v) s = .next t →
    ∃ u, exec .actd t = .next u ∧ outAt u c = scale v s.gainRef

/-- R90, R154 (decisions D14, D20): the events of `SETSCENE`, issued to a live core, leave the colours and, in each
list, the channels up to 127 in order, up to the capacity; nothing else changes. -/
def Obligations.SetsceneLoadsTheStaticScene : Prop :=
  ∀ (r g b : List Byte) (red green blue : Byte) (s : State) (rest : List Event), s.live = true →
    Host.Core.run core (r.length + g.length + b.length + 2)
        { s with input := sceneEvents r g b red green blue ++ rest } =
      .next { s with
        input := rest
        color := { red, green, blue }
        list := { red := loadedList s.params.lcap r, green := loadedList s.params.lcap g,
                  blue := loadedList s.params.lcap b } }

/-! ### Frames -/

/-- R142, R143: a channel write touches only its own slot of `DYN` and `OUT`: `SETDMX` that of its channel, `SETCC` that
of its clamped channel; every other slot and every other register is unchanged. -/
def Obligations.ChannelWriteFrame : Prop :=
  (∀ (valid : Bool) (channel value : Byte) (s t : State), exec (.setdmx valid channel value) s = .next t →
    (∀ d, byteOfChan d ≠ channel → dynAt t d = dynAt s d ∧ outAt t d = outAt s d) ∧
    ParserSame s t ∧ GainsSame s t ∧ StaticSame s t ∧ t.scene = s.scene ∧ t.rxq = s.rxq ∧ BesideSame s t) ∧
  (∀ (channel value : Byte) (s t : State), exec (.setcc channel value) s = .next t →
    (∀ d : Chan, d.toNat ≠ min channel.toNat 127 → dynAt t d = dynAt s d ∧ outAt t d = outAt s d) ∧
    ParserSame s t ∧ GainsSame s t ∧ StaticSame s t ∧ t.scene = s.scene ∧ t.rxq = s.rxq ∧ BesideSame s t)

/-- R142, R143: a gain write alters no raw value, no parser register, no configuration and not the scene; in the static
scene (decision D13) nothing is shown. -/
def Obligations.GainWriteFrame : Prop :=
  ∀ (i : Instr) (s t : State), isGainWrite i = true → exec i s = .next t →
    (∀ c, dynAt t c = dynAt s c) ∧ ParserSame s t ∧ StaticSame s t ∧ t.scene = s.scene ∧ t.rxq = s.rxq ∧
    BesideSame s t ∧ (s.scene = .static → Silent s t)

/-- R151 to R154: `SCLR`, `SPUSH` and `SRGB` show nothing, in either scene, and change no channel value, gain or parser
register; the lists keep the colours and the colours keep the lists. -/
def Obligations.ConfigurationFrame : Prop :=
  ∀ (i : Instr) (s t : State), (isListWrite i = true ∨ isColourWrite i = true) → exec i s = .next t →
    (∀ c, dynAt t c = dynAt s c) ∧ Silent s t ∧ ParserSame s t ∧ GainsSame s t ∧ t.scene = s.scene ∧ t.rxq = s.rxq ∧
    BesideSame s t ∧
    (isListWrite i = true → ∀ k, colorAt t k = colorAt s k) ∧ (isColourWrite i = true → ∀ k, listAt t k = listAt s k)

/-- R156, R158: a scene switch changes no raw value, no gain, no parser register and no configuration. -/
def Obligations.SceneSwitchFrame : Prop :=
  ∀ (i : Instr) (s t : State), isSwitch i = true → exec i s = .next t →
    (∀ c, dynAt t c = dynAt s c) ∧ ParserSame s t ∧ GainsSame s t ∧ StaticSame s t ∧ t.rxq = s.rxq ∧ BesideSame s t

/-- R110, R121: received bytes change no gain, no configuration, not the scene and not `CFG_CH`; the byte source is
touched by `POLL` alone. A byte that completes no frame (R112, R113) changes no channel and shows nothing; one that
completes a frame changes the slots of `DYN` and `OUT` of that frame's channel alone. -/
def Obligations.ReceivedByteFrame : Prop :=
  (∀ (i : Instr) (s t : State), receives i = true → exec i s = .next t →
    GainsSame s t ∧ StaticSame s t ∧ t.scene = s.scene ∧ t.cfgCh = s.cfgCh ∧ BesideSame s t ∧
    (i ≠ .poll → t.rxq = s.rxq)) ∧
  (∀ (b : Byte) (s t : State), exec (.rxbyte b) s = .next t →
    (s.pst ≠ .haveChannel → (∀ c, dynAt t c = dynAt s c) ∧ Silent s t) ∧
    (s.pst = .haveChannel → ∀ c : Chan, c.toNat ≠ min s.ctl.toNat 127 →
      dynAt t c = dynAt s c ∧ outAt t c = outAt s c))

/-! ### Rules over the whole machine -/

/-- The access lists of 10_state R21, R25 to R33 and the table of 42 R143: each register is written by the operations its
rule names and by no other. -/
def Obligations.RegistersAreWrittenOnlyByTheirWriters : Prop :=
  ∀ (i : Instr) (s t : State), exec i s = .next t → isReset i = false →
    t.cfgCh = s.cfgCh ∧ BesideSame s t ∧
    (isSwitch i = false → t.scene = s.scene) ∧
    (isGainWrite i = false → GainsSame s t) ∧
    (receives i = false → t.pst = s.pst ∧ t.ctl = s.ctl) ∧
    (isListWrite i = false → ∀ k, listAt t k = listAt s k) ∧
    (isColourWrite i = false → ∀ k, colorAt t k = colorAt s k) ∧
    (isChannelWrite i = false → receives i = false → ∀ c, dynAt t c = dynAt s c) ∧
    (i ≠ .poll → t.rxq = s.rxq)

/-- R161 (D13): in the static scene no operation but `ACTD` shows anything (`OUTEVENT`, no operation of R3, apart:
log 9); and no step shows anything unless the unit it takes is an `ACTD`, or a `RESET`, which sets `OUT` without an
event. -/
def Obligations.StaticSceneIsSilent : Prop :=
  (∀ (i : Instr) (s t : State), s.scene = .static → i ≠ .actd → isReset i = false →
    (∀ c v, i ≠ .outevent c v) → exec i s = .next t → Silent s t) ∧
  (∀ s t : State, s.scene = .static →
    (∀ e rest, s.input = e :: rest → decode e ≠ .ok .actd ∧ ∀ ch, e ≠ .rst ch) → step s = .next t → Silent s t)

/-- R22, R53, R37 INV5, R131 (decision D11): every operation but `RESET` only adds events to the trace, each a change of
what the channel showed just before it, and `OUT` afterwards is what the events make of `OUT` before. -/
def Obligations.EventsAreExactlyTheChangesOfOut : Prop :=
  ∀ (i : Instr) (s t : State), isReset i = false → exec i s = .next t →
    ∃ es, t.trace = s.trace ++ es ∧ EachChanges s.out es ∧ t.out = applyEvents s.out es

/-- R219 (bounds derived there): the number of events an operation can produce. For `SETATT` the bound is that of 44
R173 ("as `SETGAIN`"), 128, where the letter of R219 counts it among the others, with 0 (log 24); for `RXBYTE.STATUS`,
`CCFRAME` and `OUTEVENT` the bound rests on logs 9 to 11. -/
def Obligations.EventCountIsBounded : Prop :=
  ∀ (i : Instr) (s t : State), ListsBounded s → exec i s = .next t →
    t.trace.length ≤ s.trace.length + eventBound s.params i

/-- R60, R136: repeating at once an operation that neither appends to a list, nor advances the parser, nor reads the byte
source changes nothing and shows nothing. -/
def Obligations.RepeatedOperationChangesNothing : Prop :=
  ∀ (i : Instr) (s t : State), isRepeatable i = true → exec i s = .next t → exec i t = .next t

/-- R30, R139 (decision D9): `GAIN_TRK` cannot be observed: a run from a state that differs only in it gives the same
events and the same state but for it. -/
def Obligations.TrackedGainIsUnobservable : Prop :=
  ∀ (k : Nat) (s t : State) (g : Gain), Host.Core.run core k s = .next t →
    ∃ h, Host.Core.run core k { s with gainTrk := g } = .next { t with gainTrk := h }

/-- R26, U7: outside `HAVE_CHANNEL` the content of `CTL` does not matter. -/
def Obligations.ControllerLatchIsDeadOutsideHaveChannel : Prop :=
  ∀ (i : Instr) (s t : State) (x : Byte), s.pst ≠ .haveChannel → exec i s = .next t →
    ∃ y, exec i { s with ctl := x } = .next { t with ctl := y } ∧ (t.pst = .haveChannel → y = t.ctl)

/-- R37, R40: the invariants hold in the state after reset. -/
def Obligations.InvariantsHoldAfterReset : Prop := Inv State.reset

/-- R37: from every state that meets the invariants, whatever has been issued, a step gives a state that meets them. -/
def Obligations.EveryStepKeepsTheInvariants : Prop :=
  ∀ s t : State, Inv s → step s = .next t → Inv t
end

