-- ==== Sys2Proof/Tests/Slice0.lean ====
section
/-! SUPPORT. The model's own tests. Expected values are those of 95_test_vectors (S, V, P) or of the rule named, and
the witnesses show that the hypotheses of each statement are met. -/

namespace Sys2Proof.Tests

open Sys2Proof.Machine

/-! ### Small states -/

/-- The state after `RESET 0` with some channels written at unity gain: `(channel, raw value)`. -/
def lit (written : List (Chan × Byte)) : State :=
  { State.reset with
    dyn := written.foldl (fun f e => writeSlot f e.1 e.2) State.reset.dyn
    out := written.foldl (fun f e => writeSlot f e.1 e.2) State.reset.out }

/-- The static configuration of P3: R=[1 2] G=[3] B=[2], RGB=(255, 128, 7). -/
def configured (s : State) : State :=
  { s with
    list := { red := [1#7, 2#7], green := [3#7], blue := [2#7] }
    color := { red := 255#8, green := 128#8, blue := 7#8 } }

/-- A static scene showing nothing. -/
def static0 : State := { State.reset with scene := .static }

/-- P4 before line 6: a frame for MIDI channel 2 with one byte missing, gain 512, five bytes waiting. -/
def midFrame : State :=
  { State.reset with
    cfgCh := 2#4
    pst := .haveChannel
    ctl := 7#8
    gainRef := 512#11
    gainTrk := 512#11
    rxq := [0x40#8, 0xB2#8, 0x08#8, 0x7F#8, 0xB2#8] }

/-- No `RESET` yet. -/
def dead : State := { State.reset with live := false }

/-- One step that takes the unit: the state it leaves, if any. -/
def after (e : Event) (s : State) : Option State :=
  match step { s with input := [e] } with
  | .next t => some t
  | .fault _ => none
  | .refused _ => none

/-- The events the unit's one step delivers, as numbers. -/
def shownBy (e : Event) (s : State) : Option (List (Nat × Nat)) :=
  (after e s).map fun t => (t.trace.drop s.trace.length).map fun x => (x.channel.toNat, x.value.toNat)

/-! ### Well-formedness -/

/-- A byte with the marker is spelled `RXBYTE.STATUS`. -/
theorem test_wellFormed_refuses_marked_rxbyte : ¬WellFormed (.rxbyte 0xB0#8) ∧ ¬WellFormed (.rxbyte 0xBF#8) := by decide

theorem test_wellFormed_accepts_its_neighbours : WellFormed (.rxbyte 0xAF#8) ∧ WellFormed (.rxbyte 0xC0#8) := by decide

/-! ### Decoding: one unit per constructor, written out bit by bit from 30_encoding -/

/-- R77, opcode 0x00; R86, a reserved opcode. -/
theorem test_decode_nop :
    decode (.cmd 0b00000000_11111111_11111111_11111111#32) = .ok .nop ∧
    decode (.cmd 0b00000010_00000000_00000000_00000000#32) = .ok .nop := by decide

/-- R77, opcode 0x01. -/
theorem test_decode_begin : decode (.cmd 0b00000001_00000000_00000000_00000000#32) = .ok .begin := by decide

/-- R78: reserved 7, valid 1, channel 8, value 8 (V9). -/
theorem test_decode_setdmx :
    decode (.cmd 0b00010000_1111111_0_00000101_11001000#32) = .ok (.setdmx false 5#8 200#8) ∧
    decode (.cmd 0b00010000_1111111_1_00000101_11001000#32) = .ok (.setdmx true 5#8 200#8) := by decide

/-- R79: reserved 8, channel 8, value 8. -/
theorem test_decode_setcc :
    decode (.cmd 0b00010001_00000000_00001010_01100100#32) = .ok (.setcc 10#8 100#8) := by decide

/-- R80: reserved 8, gain 16 (V9). -/
theorem test_decode_setgain :
    decode (.cmd 0b00100000_11111111_0000001000000000#32) = .ok (.setgain 512#16) := by decide

/-- R80: reserved 8, raw 16. -/
theorem test_decode_setatt :
    decode (.cmd 0b00100001_00000000_0000001111111111#32) = .ok (.setatt 1023#16) := by decide

/-- R77, opcode 0x30. -/
theorem test_decode_sclr : decode (.cmd 0b00110000_00000000_00000000_00000000#32) = .ok .sclr := by decide

/-- R81: reserved 14, colour 2, channel 8 (V9; V8 row 5). -/
theorem test_decode_spush :
    decode (.cmd 0b00110001_00000000111111_01_00000011#32) = .ok (.spush 1#2 3#8) ∧
    decode (.cmd 0b00110001_00000000000000_11_00000100#32) = .ok (.spush 3#2 4#8) := by decide

/-- R81: red 8, green 8, blue 8 (P3 line 7). -/
theorem test_decode_srgb :
    decode (.cmd 0b00110010_11111111_10000000_00000111#32) = .ok (.srgb 255#8 128#8 7#8) := by decide

/-- R77, opcode 0x40 (V9). -/
theorem test_decode_acts : decode (.cmd 0b01000000_00000000_10111110_11101111#32) = .ok .acts := by decide

/-- R77, opcode 0x41. -/
theorem test_decode_actd : decode (.cmd 0b01000001_00000000_00000000_00000000#32) = .ok .actd := by decide

/-- R77, opcode 0x50. -/
theorem test_decode_poll : decode (.cmd 0b01010000_00000000_00000000_00000000#32) = .ok .poll := by decide

/-- R72: the byte itself. -/
theorem test_decode_rxbyte : decode (.rx 0b0100_0010#8) = .ok (.rxbyte 0x42#8) := by decide

/-- R72: marker 4, MIDI channel 4. -/
theorem test_decode_rxbyteStatus : decode (.rx 0b1011_0011#8) = .ok (.rxbyteStatus 3#4) := by decide

/-- R70, R71: marker 4, MIDI channel 4, controller 8, value 8; no marker, no frame. -/
theorem test_decode_ccframe :
    decode (.frame 0b1011_0000_00000001_00000010#24) = .ok (.ccframe 0#4 1#8 2#8) ∧
    decode (.frame 0b1011_1111_10010000_11111111#24) = .ok (.ccframe 15#4 0x90#8 0xFF#8) ∧
    decode (.frame 0b1001_0000_00000001_00000010#24) = .error .noFrameMarker := by decide

/-- R83: zero 1, channel 7, value 8. -/
theorem test_decode_outevent :
    decode (.outp 0b0_1111111_11111110#16) = .ok (.outevent 127#7 254#8) ∧
    decode (.outp 0b1_0000000_00000000#16) = .error .noOutputChannel := by decide

/-- R84: the 4-bit operand. -/
theorem test_decode_reset : decode (.rst 0b1101#4) = .ok (.reset 13#4) := by decide

/-- The table's words (98_reader's numbering), read and fetched. -/
theorem test_table_words :
    decodeTableWord 32 0x20000200 = some (.setgain 512#16) ∧
    decodeTableWord 24 0xB00102 = some (.ccframe 0#4 1#8 2#8) ∧
    decodeTableWord 16 0x0104 = some (.outevent 1#7 4#8) ∧
    decodeTableWord 8 0xB3 = some (.rxbyteStatus 3#4) ∧
    decodeTableWord 4 2 = some (.reset 2#4) ∧
    decodeTableWord 4 16 = none ∧
    (State.reset.withFetchWord 16 0x0104).input = [.outp 0x0104#16] := by decide

/-- The encoder puts each operand where V5 and P3 have it. -/
theorem test_encode :
    encode (.setdmx true 127#8 255#8) = .cmd 0x10017FFF#32 ∧
    encode (.spush 2#2 200#8) = .cmd 0x310002C8#32 ∧
    encode (.srgb 10#8 20#8 30#8) = .cmd 0x320A141E#32 := by decide

/-! ### One step each -/

/-- R175. -/
theorem test_nop : after (.cmd 0x00000000#32) midFrame = some midFrame := rfl

/-- R174. -/
theorem test_begin : after (.cmd 0x01000000#32) midFrame = some midFrame := rfl

/-- V5 rows 1 and 2. -/
theorem test_setdmx_discarded :
    after (.cmd 0x100005C8#32) State.reset = some State.reset ∧
    after (.cmd 0x100180C8#32) State.reset = some State.reset := ⟨rfl, rfl⟩

/-- V5 row 3; P3 line 12 with `SETDMX` (R133: pending in the static scene). -/
theorem test_setdmx_written :
    shownBy (.cmd 0x10017FFF#32) State.reset = some [(127, 255)] ∧
    shownBy (.cmd 0x1001057A#32) static0 = some [] ∧
    (after (.cmd 0x1001057A#32) static0).map (fun t => dynAt t 5#7) = some 122#8 := by decide +kernel

/-- V5 rows 6 and 9: both clamps, then no change. -/
theorem test_setcc_clamps :
    shownBy (.cmd 0x1100C8C8#32) State.reset = some [(127, 254)] ∧
    shownBy (.cmd 0x11008080#32) (lit [(127#7, 254#8)]) = some [] := by decide +kernel

/-- S6: the second identical write. -/
theorem test_setcc_repeated :
    shownBy (.cmd 0x11000102#32) State.reset = some [(1, 4)] ∧
    shownBy (.cmd 0x11000102#32) (lit [(1#7, 4#8)]) = some [] := by decide +kernel

/-- S3: a difference of 5 is absorbed and tracked. -/
theorem test_setgain_absorbed :
    shownBy (.cmd 0x200003FB#32) (lit [(10#7, 200#8), (11#7, 2#8)]) = some [] ∧
    (after (.cmd 0x200003FB#32) (lit [])).map (fun t => (t.gainRef, t.gainTrk)) = some (1024#11, 1019#11) := by
  decide +kernel

/-- S3: a difference of 6 is applied, ascending; V6 row 8: the clamp. -/
theorem test_setgain_applied :
    shownBy (.cmd 0x200003FA#32) (lit [(11#7, 2#8), (10#7, 200#8)]) = some [(10, 198), (11, 1)] ∧
    (after (.cmd 0x2000FFFF#32) { lit [] with gainRef := 1017#11 }).map (fun t => (t.gainRef, t.gainTrk)) =
      some (1024#11, 1024#11) := by decide +kernel

/-- V7: the mapped gains of 0, 511, 512, 1022, 1023, 65535. -/
theorem test_setatt_map :
    [0#16, 511#16, 512#16, 1022#16, 1023#16, 65535#16].map (fun raw => (attenuation 1023 raw).toNat) =
      [0, 511, 512, 1022, 1024, 1024] := by decide

/-- R173, the example: `SETATT 512` after reset. -/
theorem test_setatt :
    (after (.cmd 0x21000200#32) State.reset).map (fun t => (t.gainRef, t.gainTrk)) = some (512#11, 512#11) := by
  decide +kernel

/-- R151: the lists go, the colours stay, in either scene. -/
theorem test_sclr :
    after (.cmd 0x30000000#32) (configured static0) = some { static0 with color := (configured static0).color } := rfl

/-- P3 lines 2 and 3: push order. -/
theorem test_spush_appends :
    (after (.cmd 0x31000002#32) { State.reset with list := { red := [1#7], green := [], blue := [] } }).map
      (fun t => t.list) = some { red := [1#7, 2#7], green := [], blue := [] } := by decide +kernel

/-- V8 rows 3, 4, 5: full, out of range, colour 3. -/
theorem test_spush_discards :
    let s := { State.reset with
      params := { lcap := 2, rawMax := 1023 }, list := { red := [1#7, 1#7], green := [], blue := [] } }
    after (.cmd 0x31000003#32) s = some s ∧ after (.cmd 0x31000180#32) s = some s ∧
      after (.cmd 0x31000304#32) s = some s := ⟨rfl, rfl, rfl⟩

/-- P5 line 3. -/
theorem test_srgb :
    (after (.cmd 0x320A141E#32) State.reset).map (fun t => t.color) = some { red := 10#8, green := 20#8, blue := 30#8 } :=
  by decide +kernel

/-- P3 line 10. -/
theorem test_acts :
    shownBy (.cmd 0x40000000#32) (configured (lit [(2#7, 100#8), (5#7, 120#8)])) =
      some [(2, 0), (5, 0), (1, 255), (2, 255), (3, 128), (2, 7)] := by decide +kernel

/-- P3 line 11; V8 row 7: a duplicate entry emits nothing. -/
theorem test_acts_repeats :
    shownBy (.cmd 0x40000000#32) (configured static0) = some [] ∧
    shownBy (.cmd 0x40000000#32) { State.reset with
      list := { red := [1#7, 1#7], green := [], blue := [] }, color := { red := 9#8, green := 0#8, blue := 0#8 } } =
      some [(1, 9)] := by decide +kernel

/-- P3 line 15: from `DYN` 100, 20, 122 and `OUT` 255, 7, 128 at gain 512. -/
theorem test_actd :
    shownBy (.cmd 0x41000000#32)
      { configured static0 with
        dyn := (lit [(2#7, 100#8), (3#7, 20#8), (5#7, 122#8)]).dyn
        out := (lit [(1#7, 255#8), (2#7, 7#8), (3#7, 128#8)]).out
        gainRef := 512#11
        gainTrk := 512#11 } =
      some [(1, 0), (2, 0), (3, 0), (2, 50), (3, 10), (5, 61)] := by decide +kernel

/-- P5 line 9: the stale channel 1 is repaired by the restore pass. -/
theorem test_actd_after_reconfiguration :
    shownBy (.cmd 0x41000000#32)
      { static0 with
        dyn := (lit [(4#7, 255#8)]).dyn
        out := (lit [(1#7, 10#8)]).out
        list := { red := [], green := [6#7], blue := [] } } =
      some [(1, 0), (4, 255)] := by decide +kernel

/-- P4 line 6. -/
theorem test_poll_completes_one_frame :
    shownBy (.cmd 0x50000000#32) midFrame = some [(7, 64)] ∧
    (after (.cmd 0x50000000#32) midFrame).map (fun t => (t.pst, t.rxq)) =
      some (.waitStatus, [0xB2#8, 0x08#8, 0x7F#8, 0xB2#8]) := by decide +kernel

/-- V10: noise and another channel's frame before the frame; a partial frame. -/
theorem test_poll_noise_and_partial :
    shownBy (.cmd 0x50000000#32)
      { State.reset with rxq := [0x42#8, 0xB1#8, 0x05#8, 0x06#8, 0xB0#8, 0x01#8, 0x02#8] } = some [(1, 4)] ∧
    (after (.cmd 0x50000000#32) { State.reset with rxq := [0xB0#8, 0x01#8] }).map (fun t => (t.pst, t.ctl, t.rxq)) =
      some (.haveChannel, 0x01#8, []) := by decide +kernel

/-- V4, `CFG_CH = 3`: what does not start a frame. -/
theorem test_rxbyte_skipped :
    let s := { State.reset with cfgCh := 3#4 }
    [0xB0#8, 0xBF#8, 0x33#8, 0x93#8, 0xF8#8, 0x00#8].map (fun b => (after (.rx b) s).map fun t => (t.pst, t.ctl)) =
      List.replicate 6 (some (.waitStatus, 0#8)) := by decide +kernel

/-- P1 lines 16 and 17: a status byte taken as the controller number, then the value. -/
theorem test_rxbyte_captured :
    (after (.rx 0xB0#8) { State.reset with pst := .haveStatus }).map (fun t => (t.pst, t.ctl)) =
      some (.haveChannel, 0xB0#8) ∧
    shownBy (.rx 0x03#8) { State.reset with pst := .haveChannel, ctl := 0xB0#8 } = some [(127, 6)] := by decide +kernel

/-- V4: the byte that starts a frame. -/
theorem test_rxbyteStatus :
    (after (.rx 0xB3#8) { State.reset with cfgCh := 3#4 }).map (fun t => t.pst) = some .haveStatus := by decide +kernel

/-- S7 and S8. -/
theorem test_ccframe :
    shownBy (.frame 0xB00102#24) State.reset = some [(1, 4)] ∧
    (after (.frame 0xB10102#24) State.reset).map (fun t => (t.trace, t.pst, t.ctl)) = some ([], .waitStatus, 0#8) := by
  decide +kernel

/-- R131: a change is delivered, a repeat is not. -/
theorem test_outevent :
    (emit 1#7 4#8 State.reset).trace = [{ channel := 1#8, value := 4#8 }] ∧
    (emit 1#7 4#8 (lit [(1#7, 4#8)])).trace = [] := by decide +kernel

/-- R3: no unit of the output format is taken from outside. -/
theorem test_outevent_not_taken :
    step { State.reset with input := [.outp 0x0104#16] } = .refused .outputOnly ∧
    step { dead with input := [.outp 0x0104#16] } = .refused .outputOnly := ⟨rfl, rfl⟩

/-- R200: a running core is reset silently, the byte source is not emptied. -/
theorem test_reset :
    after (.rst 2#4) (configured { midFrame with dyn := (lit [(7#7, 9#8)]).dyn }) =
      some { State.reset with cfgCh := 2#4, rxq := midFrame.rxq } := rfl

/-- R201, R196: the first event must be `RESET`. -/
theorem test_before_reset :
    step { dead with input := [.cmd 0#32] } = .refused .beforeReset ∧ after (.rst 0#4) dead = some State.reset :=
  ⟨rfl, rfl⟩

/-- R52, R89: `SRC` is the environment's. -/
theorem test_source : after (.src [0xB2#8, 0x07#8]) { State.reset with rxq := [1#8] } =
    some { State.reset with rxq := [1#8, 0xB2#8, 0x07#8] } := rfl

/-! ### Functions -/

/-- V1 and V3, the rows at the boundaries. -/
theorem test_map_and_scale :
    [(127#8, 127#8), (128#8, 128#8), (255#8, 0#8), (0xB0#8, 3#8)].map
      (fun p => ((mapCc p.1 p.2).channel.toNat, (mapCc p.1 p.2).value.toNat)) =
      [(127, 254), (127, 254), (127, 0), (127, 6)] ∧
    [(255#8, 1024#11), (255#8, 1023#11), (255#8, 4#11), (255#8, 5#11), (200#8, 520#11), (255#8, 1017#11)].map
      (fun p => (scale p.1 p.2).toNat) = [255, 254, 0, 1, 101, 253] := by decide

/-- V2. -/
theorem test_dmxValue :
    dvValid (dv 0#8 0#8) = true ∧ dvValid dvInvalid = false ∧ dvEqual (dv 3#8 7#8) (dv 3#8 8#8) = false ∧
    dvEqual (dv 4#8 7#8) (dv 3#8 7#8) = false ∧ dvEqual dvInvalid (dv 0#8 0#8) = true := by decide

/-! ### Witnesses: the hypotheses of the statements are met -/

theorem witness_DecodeEncodeAgree : WellFormed (.rxbyte 0x42#8) ∧ WellFormed (.spush 3#2 255#8) := by decide

theorem witness_DecodedOperationIsWellFormed : decode (.rx 0x42#8) = .ok (.rxbyte 0x42#8) := by decide

/-- One word for each clause. -/
theorem witness_CommandFieldsAreThoseOfTheTable :
    [0x00FFFFFF#32, 0x01FFFFFF#32, 0x10FFFFFF#32, 0x11FFFFFF#32, 0x20FFFFFF#32, 0x21FFFFFF#32, 0x30FFFFFF#32,
      0x31FFFFFF#32, 0x32FFFFFF#32, 0x40FFFFFF#32, 0x41FFFFFF#32, 0x50FFFFFF#32].map
      (fun w : Command => w.toNat / 2 ^ 24) = assignedOpcodes := by decide

theorem witness_ReservedOpcodeIsPerformedAsNop :
    (0x02000000#32 : Command).toNat / 2 ^ 24 ∉ assignedOpcodes ∧
    (0xFF123456#32 : Command).toNat / 2 ^ 24 ∉ assignedOpcodes ∧
    ({ State.reset with input := [.cmd 0xFF123456#32] } : State).live = true := by decide

theorem witness_ReservedPayloadBitsAreIgnored :
    let w : Command := 0x20FF0200#32
    let u : Command := 0x20000200#32
    w.toNat / 2 ^ 24 = u.toNat / 2 ^ 24 ∧
    w &&& namedPayload (w.toNat / 2 ^ 24) = u &&& namedPayload (w.toNat / 2 ^ 24) := by decide

/-- Both sides of each boundary. -/
theorem witness_OtherUnitsDecode :
    (0xB0#8 : Byte).toNat / 16 = 0xB ∧ (0xBF#8 : Byte).toNat / 16 = 0xB ∧ (0xAF#8 : Byte).toNat / 16 ≠ 0xB ∧
    (0xC0#8 : Byte).toNat / 16 ≠ 0xB ∧ (0xBFFFFF#24).toNat / 2 ^ 20 = 0xB ∧ (0xC00000#24).toNat / 2 ^ 20 ≠ 0xB ∧
    (0x7FFF#16 : Half).toNat < 2 ^ 15 ∧ 2 ^ 15 ≤ (0x8000#16 : Half).toNat := by decide

theorem witness_StepRunsTheDecodedOperation :
    ({ State.reset with input := [.cmd 0x40000000#32] } : State).input = [.cmd 0x40000000#32] ∧
    decode (.cmd 0x40000000#32) = .ok .acts ∧ (∀ c v, Instr.acts ≠ .outevent c v) ∧
    ({ State.reset with input := [.outp 0x0104#16] } : State).input = [.outp 0x0104#16] ∧
    decode (.outp 0x0104#16) = .ok (.outevent 1#7 4#8) ∧ step State.reset = .next State.reset :=
  ⟨rfl, by decide, (fun _ _ h => nomatch h), rfl, by decide, rfl⟩

theorem witness_StepFeedsTheByteSourceOrWaits :
    ({ State.reset with input := [.src [1#8]] } : State).input = [.src [1#8]] ∧ State.reset.input = [] := by decide

theorem witness_EveryOperationCompletes :
    State.reset.live = true ∧
    ({ State.reset with input := [.cmd 0xFFFFFFFF#32] } : State).input = [.cmd 0xFFFFFFFF#32] := by decide

theorem witness_NothingRunsBeforeReset : dead.live = false ∧ isReset .poll = false := by decide

/-- The boundary values 127 and 128 of both clamps. -/
theorem witness_MapperLaws : (127#8 : Byte).toNat ≤ 127 ∧ 128 ≤ (128#8 : Byte).toNat := by decide

theorem witness_ScaleLaws :
    (0#11 : Gain).toNat ≤ 1024 ∧ (1024#11 : Gain).toNat ≤ 1024 ∧ (1023#11 : Gain).toNat ≤ (1024#11 : Gain).toNat ∧
    (254#8 : Byte).toNat ≤ (255#8 : Byte).toNat := by decide

/-- A repeat and a change. -/
theorem witness_EmitFiresOnChangeOnly : outAt (lit [(1#7, 4#8)]) 1#7 = 4#8 ∧ outAt (lit [(1#7, 4#8)]) 2#7 ≠ 4#8 := by
  decide +kernel

theorem witness_NopAndBeginChangeNothing : midFrame.live = true := by decide

/-- Each of the two grounds, the second at its boundary. -/
theorem witness_SetdmxDiscardsInvalidAndOutOfRange :
    State.reset.live = true ∧ (false = false ∨ 128 ≤ (5#8 : Byte).toNat) ∧
    (true = false ∨ 128 ≤ (128#8 : Byte).toNat) := by decide

theorem witness_SetdmxInDynamicSceneShowsTheScaledValue :
    (lit [(1#7, 4#8)]).live = true ∧ (lit [(1#7, 4#8)]).scene = .dynamic := by decide

theorem witness_SetdmxInStaticSceneIsPending : static0.live = true ∧ static0.scene = .static := by decide

theorem witness_SetccWritesTheMappedPair : midFrame.live = true := by decide

theorem witness_RangePoliciesStayDistinct : State.reset.live = true ∧ 128 ≤ (128#8 : Byte).toNat := by decide

/-- The boundary: a difference of exactly 5, on either side. -/
theorem witness_SetgainInsideTheDeadZoneIsTrackedOnly :
    State.reset.live = true ∧ absDiff (min (1019#16 : Half).toNat 1024) State.reset.gainRef.toNat = 5 ∧
    absDiff (min (517#16 : Half).toNat 1024) midFrame.gainRef.toNat = 5 := by decide

/-- The boundary: a difference of exactly 6. -/
theorem witness_SetgainOutsideTheDeadZoneRescales :
    State.reset.live = true ∧ State.reset.scene = .dynamic ∧
    absDiff (min (1018#16 : Half).toNat 1024) State.reset.gainRef.toNat = 6 := by decide

theorem witness_SetgainInStaticSceneIsSilent :
    static0.live = true ∧ static0.scene = .static ∧
    absDiff (min (1018#16 : Half).toNat 1024) static0.gainRef.toNat = 6 := by decide

/-- Both ends of the range. -/
theorem witness_SetattMapsTheReadingToAGain :
    State.reset.live = true ∧ 1 ≤ State.reset.params.rawMax ∧ (0#16 : Half).toNat = 0 ∧
    State.reset.params.rawMax ≤ (1023#16 : Half).toNat := by decide

theorem witness_SclrEmptiesTheLists : (configured static0).live = true := by decide

/-- The last free place of a list. -/
theorem witness_SpushAppendsToItsList :
    let s := { configured static0 with params := { lcap := 3, rawMax := 1023 } }
    s.live = true ∧ colourOf 0#2 = some .red ∧ lenAt s .red + 1 = s.params.lcap := by decide

/-- Each of the three grounds. -/
theorem witness_SpushDiscards :
    let s := { configured static0 with params := { lcap := 2, rawMax := 1023 } }
    s.live = true ∧ (3#2 : BitVec 2) = 3#2 ∧ 128 ≤ (128#8 : Byte).toNat ∧ colourOf 0#2 = some .red ∧
    lenAt s .red = s.params.lcap := by decide

theorem witness_SrgbSetsTheColours : static0.live = true := by decide

theorem witness_ActsBlacksOutThenLightsTheStaticScene :
    (configured (lit [(2#7, 100#8)])).live = true ∧ (configured (lit [(2#7, 100#8)])).scene = .dynamic := by decide

theorem witness_ActdRestoresTheDynamicScene :
    (configured static0).live = true ∧ (configured static0).scene = .static := by decide

/-- A switch that runs, and each scene. -/
theorem witness_SceneSwitchIsIdempotent :
    exec .acts State.reset = .next (activateStatic State.reset) ∧
    exec .actd static0 = .next (activateDynamic static0) ∧ static0.live = true ∧
    static0.scene = .static ∧ State.reset.scene = .dynamic :=
  ⟨rfl, rfl, by decide⟩

/-- The one byte, and its neighbour. -/
theorem witness_OnlyOneByteStartsAFrame :
    State.reset.live = true ∧ State.reset.pst = .waitStatus ∧
    (0xB0#8 : Byte).toNat = 0xB0 + State.reset.cfgCh.toNat ∧
    (0xB1#8 : Byte).toNat ≠ 0xB0 + State.reset.cfgCh.toNat := by decide

theorem witness_BytesInsideAFrameAreCaptured :
    midFrame.live = true ∧ midFrame.pst = .haveChannel ∧
    ({ midFrame with pst := .haveStatus } : State).pst = .haveStatus := by decide

/-- A marked byte for `CFG_CH`, and one for another channel. -/
theorem witness_StatusByteRow :
    State.reset.live = true ∧ State.reset.pst = .waitStatus ∧ (0#4 : MidiChan) = State.reset.cfgCh ∧
    (1#4 : MidiChan) ≠ State.reset.cfgCh := by decide

theorem witness_MatchingFramePerformsItsSetcc : State.reset.live = true ∧ State.reset.pst = .waitStatus := by decide

theorem witness_FrameForAnotherChannelIsDropped :
    State.reset.live = true ∧ State.reset.pst = .waitStatus ∧ (1#4 : MidiChan) ≠ State.reset.cfgCh ∧
    (127#8 : Byte).toNat ≤ 127 := by decide

theorem witness_FrameIsItsThreeBytes : midFrame.live = true := by decide

theorem witness_OutputEventIsAnEmit : State.reset.live = true := by decide

theorem witness_PollReceivesUpToOneFrame : midFrame.live = true := by decide

theorem witness_PollSkipsNoiseToTheFirstFrame :
    let noise : List Byte := [0x42#8, 0xB1#8, 0x05#8, 0x06#8]
    let s := { State.reset with rxq := noise ++ [0xB0#8, 0x01#8, 0x02#8, 0xB0#8] }
    s.live = true ∧ s.pst = .waitStatus ∧ (∀ b ∈ noise, b.toNat ≠ 0xB0 + s.cfgCh.toNat) ∧
    s.rxq = noise ++ BitVec.ofNat 8 (0xB0 + s.cfgCh.toNat) :: 0x01#8 :: 0x02#8 :: [0xB0#8] := by decide

/-- P4 lines 1 to 6: two bytes of a frame, the rest later. -/
theorem witness_PartialFrameResumesInALaterPoll :
    let s := { State.reset with cfgCh := 2#4 }
    s.live = true ∧ (feed [0xB2#8, 0x07#8] s).2 = 0 ∧
    exec .poll { s with rxq := [0xB2#8, 0x07#8] } = .next { s with pst := .haveChannel, ctl := 7#8 } :=
  ⟨by decide, by decide +kernel, rfl⟩

theorem witness_PendingWriteSurfacesAtActd :
    static0.live = true ∧ static0.scene = .static ∧
    exec (.setdmx true (byteOfChan 5#7) 122#8) static0 = .next (setDmxValue (dv (byteOfChan 5#7) 122#8) static0) :=
  ⟨by decide, by decide, rfl⟩

theorem witness_SetsceneLoadsTheStaticScene : State.reset.live = true := by decide

/-- One operation for each clause. -/
theorem witness_ChannelWriteFrame :
    exec (.setdmx true 5#8 122#8) static0 = .next (setDmxValue (dv 5#8 122#8) static0) ∧
    exec (.setcc 200#8 61#8) static0 = .next (setCcValue 200#8 61#8 static0) ∧ byteOfChan 6#7 ≠ 5#8 ∧
    (126#7 : Chan).toNat ≠ min (200#8 : Byte).toNat 127 :=
  ⟨rfl, rfl, by decide⟩

theorem witness_GainWriteFrame :
    isGainWrite (.setgain 0#16) = true ∧ static0.scene = .static ∧
    exec (.setgain 0#16) static0 = .next (setGainTo 0#16 static0) :=
  ⟨by decide, by decide, rfl⟩

/-- A list write and a colour write. -/
theorem witness_ConfigurationFrame :
    isListWrite .sclr = true ∧ isColourWrite (.srgb 1#8 2#8 3#8) = true ∧
    exec .sclr State.reset = .next State.reset ∧
    exec (.srgb 1#8 2#8 3#8) State.reset =
      .next { State.reset with color := { red := 1#8, green := 2#8, blue := 3#8 } } :=
  ⟨by decide, by decide, rfl, rfl⟩

theorem witness_SceneSwitchFrame : isSwitch .acts = true ∧ exec .acts State.reset = .next (activateStatic State.reset) :=
  ⟨by decide, rfl⟩

/-- A byte that completes no frame, and one that does. -/
theorem witness_ReceivedByteFrame :
    receives (.rxbyte 5#8) = true ∧ (Instr.rxbyte 5#8) ≠ .poll ∧ State.reset.pst ≠ .haveChannel ∧
    exec (.rxbyte 5#8) State.reset = .next (receiveByte 5#8 State.reset).1 ∧ midFrame.pst = .haveChannel ∧
    (6#7 : Chan).toNat ≠ min midFrame.ctl.toNat 127 ∧
    exec (.rxbyte 5#8) midFrame = .next (setCcValue 7#8 5#8 { midFrame with pst := .waitStatus }) :=
  ⟨by decide, by decide, by decide, rfl, by decide, by decide, rfl⟩

/-- An operation that is no writer of any of the registers. -/
theorem witness_RegistersAreWrittenOnlyByTheirWriters :
    exec .nop midFrame = .next midFrame ∧ isReset .nop = false ∧ isSwitch .nop = false ∧ isGainWrite .nop = false ∧
    receives .nop = false ∧ isListWrite .nop = false ∧ isColourWrite .nop = false ∧ isChannelWrite .nop = false ∧
    Instr.nop ≠ .poll :=
  ⟨rfl, by decide⟩

theorem witness_StaticSceneIsSilent :
    static0.scene = .static ∧ Instr.acts ≠ .actd ∧ isReset .acts = false ∧ (∀ c v, Instr.acts ≠ .outevent c v) ∧
    exec .acts static0 = .next static0 := ⟨by decide, by decide, by decide, (fun _ _ h => nomatch h), rfl⟩

/-- Its second clause: a step that takes an `ACTS`. -/
theorem witness_StaticSceneIsSilent_step :
    let s := { static0 with input := [.cmd 0x40000000#32] }
    s.scene = .static ∧ (∀ e rest, s.input = e :: rest → decode e ≠ .ok .actd ∧ ∀ ch, e ≠ .rst ch) ∧
    step s = .next static0 := by
  refine ⟨rfl, fun e rest h => ?_, rfl⟩
  cases h
  exact ⟨by decide, fun _ h => nomatch h⟩

theorem witness_EventsAreExactlyTheChangesOfOut :
    isReset (.outevent 1#7 4#8) = false ∧
    exec (.outevent 1#7 4#8) State.reset = .next (emit 1#7 4#8 State.reset) :=
  ⟨by decide, rfl⟩

theorem witness_EventCountIsBounded :
    ListsBounded (configured State.reset) ∧
    exec .nop (configured State.reset) = .next (configured State.reset) := by
  refine ⟨fun k => ?_, rfl⟩
  cases k <;> decide

theorem witness_RepeatedOperationChangesNothing :
    isRepeatable .acts = true ∧ exec .acts State.reset = .next (activateStatic State.reset) :=
  ⟨by decide, rfl⟩

/-- A run of one step: an absorbed gain. -/
theorem witness_TrackedGainIsUnobservable :
    Host.Core.run core 1 { State.reset with input := [.cmd 0x200003FC#32] } =
      .next { State.reset with gainTrk := 1020#11 } :=
  rfl

/-- The next byte is captured, whatever `CTL` held. -/
theorem witness_ControllerLatchIsDeadOutsideHaveChannel :
    let s := { State.reset with pst := .haveStatus }
    s.pst ≠ .haveChannel ∧ exec (.rxbyte 9#8) s = .next { s with pst := .haveChannel, ctl := 9#8 } :=
  ⟨by decide, rfl⟩

/-- A state with a unit to take, that meets the invariants, and its step. -/
theorem witness_EveryStepKeepsTheInvariants :
    Inv { State.reset with input := [.cmd 0x40000000#32] } ∧
    step { State.reset with input := [.cmd 0x40000000#32] } = .next (activateStatic State.reset) := by
  refine ⟨⟨fun _ he => by simp [State.reset] at he, fun _ => ⟨by decide, by decide⟩, fun _ k => ?_, fun _ _ => ?_⟩, rfl⟩
  · cases k <;> decide
  · decide +kernel

end Sys2Proof.Tests
end

section
/-! Proofs. The scope of a step (00_scope R3, R14). -/

namespace Sys2Proof.Proofs

open Sys2Proof.Machine Sys2Proof.Laws

/-- `OUTEVENT` is the only row that is no operation (R3). -/
theorem isOperation_true_iff (i : Instr) : isOperation i = true ↔ ∀ c v, i ≠ .outevent c v := by
  simp only [← Bool.not_eq_false, isOperation_false_iff, not_exists, ne_eq]

/-- A step that takes a unit of the output format is refused (log 9). -/
theorem step_of_decode_outevent {s : State} {e : Event} {rest : List Event} {c : Chan} {v : Byte}
    (hi : s.input = e :: rest) (hd : decode e = .ok (.outevent c v)) : step s = .refused .outputOnly := by
  rw [step_unit hi (by rintro bytes rfl; cases hd), hd]
  rfl

/-- Settles O8: the three clauses are `step_of_decode`, `step_of_decode_outevent` and `step_cases`, with
`isOperation` read as "not `OUTEVENT`". -/
theorem stepRunsTheDecodedOperation : Obligations.StepRunsTheDecodedOperation := by
  refine ⟨fun s e rest i hi hd ho => step_of_decode hi hd ((isOperation_true_iff i).2 ho),
    fun s e rest c v hi hd => step_of_decode_outevent hi hd, fun s t h => ?_⟩
  simpa only [isOperation_true_iff] using step_cases h

end Sys2Proof.Proofs
end

section
/-! Proofs. What an operation leaves behind, in one table: an operation that completes gives `perform i s`. -/

namespace Sys2Proof.Proofs

open Sys2Proof.Machine Sys2Proof.Laws

/-- The state an operation gives when it completes (the meanings of 41 to 44 and 70, without the refusal of R201). -/
def perform (i : Instr) (s : State) : State :=
  match i with
  | .nop => s
  | .begin => s
  | .setdmx valid channel value => setDmxValue { channel, value, valid } s
  | .setcc channel value => setDmxValue (mapCc channel value) s
  | .setgain gain => setGainTo gain s
  | .setatt raw => setGainTo (attenuation s.params.rawMax raw) s
  | .sclr => { s with list := { red := [], green := [], blue := [] } }
  | .spush colour channel => pushChannel colour channel s
  | .srgb red green blue => { s with color := { red, green, blue } }
  | .acts => activateStatic s
  | .actd => activateDynamic s
  | .poll => pollLoop s.rxq s
  | .rxbyte b => (receiveByte b s).1
  | .rxbyteStatus n => (receiveByte (ccMarker ++ n) s).1
  | .ccframe n c v => (receiveByte v (receiveByte c (receiveByte (ccMarker ++ n) s).1).1).1
  | .outevent c v => emit c v s
  | .reset ch => resetTo ch s

theorem exec_of_not_isReset {i : Instr} (h : isReset i = false) (s : State) : exec i s = whenLive s (perform i s) := by
  cases i with
  | reset ch => cases h
  | _ => rfl

theorem isReset_true_iff (i : Instr) : isReset i = true ↔ ∃ ch, i = .reset ch := by
  cases i <;> simp [isReset]

/-- An operation completes if it is a `RESET` or follows one (R201), and then gives `perform i s`. -/
theorem exec_next_iff (i : Instr) (s t : State) :
    exec i s = .next t ↔ (isReset i = true ∨ s.live = true) ∧ perform i s = t := by
  cases hr : isReset i with
  | false => simp [exec_of_not_isReset hr, whenLive_next_iff]
  | true =>
    obtain ⟨ch, rfl⟩ := (isReset_true_iff i).1 hr
    simp [exec, execReset, perform]

theorem perform_of_isGainWrite {i : Instr} (h : isGainWrite i = true) (s : State) :
    ∃ g, perform i s = setGainTo g s := by
  cases i with
  | setgain g => exact ⟨g, rfl⟩
  | setatt raw => exact ⟨_, rfl⟩
  | _ => cases h

/-- What changes of the parser's registers and the byte source keep, and channel writes keep, every received byte
keeps (R111). -/
theorem receiveByte_keeps {P : State → Prop}
    (parser : ∀ s p x q, P s → P { s with pst := p, ctl := x, rxq := q })
    (write : ∀ d s, P s → P (setDmxValue d s)) (b : Byte) {s : State} (h : P s) : P (receiveByte b s).1 := by
  obtain ⟨_, _, e⟩ | ⟨_, _, e⟩ | ⟨_, e⟩ | ⟨_, e⟩ := receiveByte_cases b s <;> rw [e]
  · exact parser s .haveStatus s.ctl s.rxq h
  · exact h
  · exact parser s .haveChannel b s.rxq h
  · exact write (mapCc s.ctl b) _ (parser s .waitStatus s.ctl s.rxq h)

/-- A relation between two states under which received bytes cannot tell them apart. -/
structure ByteRelation (R : State → State → Prop) : Prop where
  rxq_eq : ∀ {s s'}, R s s' → s'.rxq = s.rxq
  set_rxq : ∀ {s s'} q, R s s' → R { s with rxq := q } { s' with rxq := q }
  receive : ∀ {s s'} b, R s s' →
    R (receiveByte b s).1 (receiveByte b s').1 ∧ (receiveByte b s').2 = (receiveByte b s).2

/-- Two polls of related states take the same bytes and end related (R171). -/
theorem ByteRelation.pollLoop {R : State → State → Prop} (hR : ByteRelation R) (bytes : List Byte) {s s' : State}
    (h : R s s') : R (pollLoop bytes s) (pollLoop bytes s') := by
  induction bytes generalizing s s' with
  | nil => exact h
  | cons b rest ih =>
    obtain ⟨hr, hc⟩ := hR.receive b (hR.set_rxq rest h)
    cases hd : (receiveByte b { s with rxq := rest }).2 with
    | true => rwa [pollLoop_done (Prod.ext rfl hd), pollLoop_done (Prod.ext rfl (hc.trans hd))]
    | false =>
      rw [pollLoop_skip (Prod.ext rfl hd), pollLoop_skip (Prod.ext rfl (hc.trans hd))]
      exact ih hr

/-- Every operation that receives bytes leaves related states related. -/
theorem ByteRelation.perform {R : State → State → Prop} (hR : ByteRelation R) {i : Instr} (hi : receives i = true)
    {s s' : State} (h : R s s') : R (perform i s) (perform i s') := by
  have byte (b : Byte) {u u' : State} (hu : R u u') : R (receiveByte b u).1 (receiveByte b u').1 :=
    (hR.receive b hu).1
  cases i with
  | poll =>
    simp only [Proofs.perform, hR.rxq_eq h]
    exact hR.pollLoop s.rxq h
  | rxbyte b => exact byte b h
  | rxbyteStatus n => exact byte _ h
  | ccframe n c v => exact byte v (byte c (byte _ h))
  | _ => cases hi

/-- What changes of the parser's registers and the byte source keep, and channel writes keep, every operation that
receives bytes keeps. -/
theorem perform_keeps_of_receives {P : State → Prop}
    (parser : ∀ s p x q, P s → P { s with pst := p, ctl := x, rxq := q })
    (write : ∀ d s, P s → P (setDmxValue d s)) {i : Instr} (hi : receives i = true) {s : State} (h : P s) :
    P (perform i s) := by
  have hR : ByteRelation fun u u' => P u ∧ u' = u :=
    { rxq_eq := fun h => by rw [h.2]
      set_rxq := fun {u _} q h => ⟨parser u u.pst u.ctl q h.1, by rw [h.2]⟩
      receive := fun b h => ⟨⟨receiveByte_keeps parser write b h.1, by rw [h.2]⟩, by rw [h.2]⟩ }
  exact (hR.perform hi ⟨h, rfl⟩).1

end Sys2Proof.Proofs
end

section
/-! Proofs. The output events and `OUT` (10_state R22, R37 INV5). -/

namespace Sys2Proof.Proofs

open Sys2Proof.Machine Sys2Proof.Laws

/-- `t` shows what `s` shows after some writes, each through `Emit`, and its trace tells of them. -/
def ShowsPlan (s t : State) : Prop :=
  ∃ p, t.out = planFile s.out p ∧ t.trace = s.trace ++ planEvents s.out p

theorem ShowsPlan.refl (s : State) : ShowsPlan s s := ⟨[], rfl, by simp [planEvents]⟩

theorem ShowsPlan.trans {s t u : State} (h : ShowsPlan s t) (h' : ShowsPlan t u) : ShowsPlan s u := by
  obtain ⟨p, ho, ht⟩ := h
  obtain ⟨q, ho', ht'⟩ := h'
  exact ⟨p ++ q, by rw [ho', ho, planFile_append], by rw [ht', ht, ho, planEvents_append, List.append_assoc]⟩

theorem showsPlan_setDmxValue (d : DmxValue) (s : State) : ShowsPlan s (setDmxValue d s) :=
  ⟨dmxPlan d s.scene s.gainRef, by rw [setDmxValue_eq], by rw [setDmxValue_eq]⟩

theorem showsPlan_setGainTo (g : Half) (s : State) : ShowsPlan s (setGainTo g s) :=
  ⟨gainPlan g s.dyn s.scene s.gainRef, by rw [setGainTo_eq], by rw [setGainTo_eq]⟩

theorem showsPlan_pushChannel (k : BitVec 2) (channel : Byte) (s : State) : ShowsPlan s (pushChannel k channel s) := by
  rw [pushChannel_eq]
  exact ShowsPlan.refl s

theorem showsPlan_of_receives {i : Instr} (hi : receives i = true) (s : State) : ShowsPlan s (perform i s) :=
  perform_keeps_of_receives (P := ShowsPlan s) (fun _ _ _ _ h => h)
    (fun d u h => h.trans (showsPlan_setDmxValue d u)) hi (.refl s)

/-- Every operation but `RESET` shows a sequence of `Emit`s and nothing else (R22, R131). -/
theorem showsPlan_perform {i : Instr} (hr : isReset i = false) (s : State) : ShowsPlan s (perform i s) := by
  cases i with
  | nop | begin | sclr | srgb => exact ShowsPlan.refl s
  | setdmx | setcc => exact showsPlan_setDmxValue _ s
  | setgain | setatt => exact showsPlan_setGainTo _ s
  | spush colour channel => exact showsPlan_pushChannel colour channel s
  | acts => exact ⟨actsPlan s, by rw [perform, activateStatic_eq], by rw [perform, activateStatic_eq]⟩
  | actd => exact ⟨actdPlan s, by rw [perform, activateDynamic_eq], by rw [perform, activateDynamic_eq]⟩
  | poll | rxbyte | rxbyteStatus | ccframe => exact showsPlan_of_receives rfl s
  | outevent c v => exact ⟨[(c, v)], emit_out c v s, emit_trace c v s⟩
  | reset ch => cases hr

/-- Settles O54: the operation is a sequence of `Emit`s (`showsPlan_perform`), whose events replay `OUT`
(`planEvents_replay`). -/
theorem eventsAreExactlyTheChangesOfOut : Obligations.EventsAreExactlyTheChangesOfOut := by
  intro i s t hr h
  obtain ⟨-, rfl⟩ := (exec_next_iff i s t).1 h
  obtain ⟨p, hout, htrace⟩ := showsPlan_perform hr s
  obtain ⟨hchanges, hreplay⟩ := planEvents_replay p s.out
  exact ⟨planEvents s.out p, htrace, hchanges, hout.trans hreplay⟩

end Sys2Proof.Proofs
end

section
/-! Proofs. Which operation writes which register (10_state R21 to R33, 42 R143). -/

namespace Sys2Proof.Proofs

open Sys2Proof.Machine Sys2Proof.Laws

/-- What a whole frame leaves (R119): what each of its bytes leaves. -/
theorem perform_ccframe_frame (n : MidiChan) (c v : Byte) (s : State) :
    perform (.ccframe n c v) s =
      { s with
        dyn := (perform (.ccframe n c v) s).dyn
        out := (perform (.ccframe n c v) s).out
        trace := (perform (.ccframe n c v) s).trace
        pst := (perform (.ccframe n c v) s).pst
        ctl := (perform (.ccframe n c v) s).ctl } := by
  simp only [perform]
  rw [receiveByte_frame v, receiveByte_frame c, receiveByte_frame (ccMarker ++ n)]

/-- Settles O52: each operation's frame lemma names the registers it writes, and the flags of that operation allow
exactly those. -/
theorem registersAreWrittenOnlyByTheirWriters : Obligations.RegistersAreWrittenOnlyByTheirWriters := by
  intro i s t h hr
  obtain ⟨-, rfl⟩ := (exec_next_iff i s t).1 h
  simp only [BesideSame, GainsSame, listAt, colorAt, dynAt]
  cases i with
  | nop | begin | sclr | srgb => simp [perform, isListWrite, isColourWrite]
  | setdmx | setcc => rw [perform, setDmxValue_frame]; simp [isChannelWrite]
  | setgain | setatt => rw [perform, setGainTo_frame]; simp [isGainWrite]
  | spush => rw [perform, pushChannel_frame]; simp [isListWrite]
  | acts => rw [perform, activateStatic_frame]; simp [isSwitch]
  | actd => rw [perform, activateDynamic_frame]; simp [isSwitch]
  | poll => rw [perform, pollLoop_frame]; simp [receives]
  | rxbyte | rxbyteStatus => rw [perform, receiveByte_frame]; simp [receives]
  | ccframe => rw [perform_ccframe_frame]; simp [receives]
  | outevent => rw [perform, emit_frame]; simp
  | reset => cases hr

end Sys2Proof.Proofs
end

section
/-! Proofs. Two latches that outside their own use cannot be observed: `GAIN_TRK` (10_state R30, D9) and, outside
`HAVE_CHANNEL`, `CTL` (R26, U7). -/

namespace Sys2Proof.Proofs

open Sys2Proof.Machine Sys2Proof.Laws

theorem emit_latches (c : Chan) (v : Byte) (s : State) (g : Gain) (x : Byte) :
    emit c v { s with gainTrk := g, ctl := x } = { emit c v s with gainTrk := g, ctl := x } := by
  have plan (u : State) : emit c v u = runPlan [(c, v)] u := rfl
  rw [plan, plan, runPlan_eq, runPlan_eq]

/-- An operation that receives no byte reads neither latch: it leaves `CTL` as it finds it, and `GAIN_TRK` too, unless
it writes it. -/
theorem perform_latches {i : Instr} (hi : receives i = false) (hr : isReset i = false) (s : State) (g : Gain)
    (x : Byte) :
    perform i { s with gainTrk := g, ctl := x } =
      { perform i s with gainTrk := if isGainWrite i then (perform i s).gainTrk else g, ctl := x } := by
  cases i with
  | nop | begin | sclr | srgb => rfl
  | setdmx | setcc => simp only [perform, setDmxValue_eq]; rfl
  | setgain | setatt => simp only [perform, setGainTo_eq]; rfl
  | spush => simp only [perform, pushChannel_eq]; rfl
  | acts => simp only [perform, activateStatic_eq]; rfl
  | actd => simp only [perform, activateDynamic_eq]; rfl
  | outevent c v => exact emit_latches c v s g x
  | reset => cases hr
  | _ => cases hi

/-- Received bytes neither read nor write `GAIN_TRK`. -/
theorem byteRelation_gainTrk (g : Gain) : ByteRelation fun s s' => s' = { s with gainTrk := g } where
  rxq_eq := by rintro s _ rfl; rfl
  set_rxq := by rintro s _ q rfl; rfl
  receive := by
    rintro s _ b rfl
    obtain ⟨hs, hc⟩ := Prod.ext_iff.1 (receiveByte_beside b s g s.rxq s.input)
    refine ⟨hs.trans ?_, hc⟩
    rw [receiveByte_frame b s]

/-- A completed operation completes from any other `GAIN_TRK` too, and differs in it alone. -/
theorem exec_gainTrk {i : Instr} {s t : State} (h : exec i s = .next t) (g : Gain) :
    ∃ g', exec i { s with gainTrk := g } = .next { t with gainTrk := g' } := by
  obtain ⟨hl, rfl⟩ := (exec_next_iff i s t).1 h
  suffices ∃ g', perform i { s with gainTrk := g } = { perform i s with gainTrk := g' } from
    this.imp fun g' e => (exec_next_iff ..).2 ⟨hl, e⟩
  cases hi : receives i with
  | true => exact ⟨g, (byteRelation_gainTrk g).perform hi rfl⟩
  | false =>
    cases hr : isReset i with
    | true =>
      obtain ⟨ch, rfl⟩ := (isReset_true_iff i).1 hr
      exact ⟨1024#11, rfl⟩
    | false =>
      obtain ⟨-, -, -, -, parser, -⟩ := registersAreWrittenOnlyByTheirWriters i s _ h hr
      obtain ⟨-, hctl⟩ := parser hi
      refine ⟨if isGainWrite i then (perform i s).gainTrk else g, (perform_latches hi hr s g s.ctl).trans ?_⟩
      rw [← hctl]

theorem step_of_input_nil {s : State} (hi : s.input = []) : step s = .next s := by
  simp [step, advance, hi]

theorem step_of_src {s : State} {bytes : List Byte} {rest : List Event} (hi : s.input = .src bytes :: rest) :
    step s = .next { s with input := rest, rxq := s.rxq ++ bytes } := by
  simp [step, advance, hi, takeEvent, appendBytes]

theorem step_gainTrk {s t : State} (h : step s = .next t) (g : Gain) :
    ∃ g', step { s with gainTrk := g } = .next { t with gainTrk := g' } := by
  obtain ⟨hi, rfl⟩ | ⟨e, rest, hi, ⟨bytes, rfl, rfl⟩ | ⟨i, hd, ho, hx⟩⟩ := step_cases h
  · exact ⟨g, step_of_input_nil hi⟩
  · exact ⟨g, step_of_src hi⟩
  · obtain ⟨g', hx'⟩ := exec_gainTrk hx g
    exact ⟨g', (step_of_decode (s := { s with gainTrk := g }) hi hd ho).trans hx'⟩

/-- Settles O57, by induction on the number of steps: each step keeps the two runs alike but for `GAIN_TRK`
(`step_gainTrk`). -/
theorem trackedGainIsUnobservable : Obligations.TrackedGainIsUnobservable := by
  intro k
  induction k with
  | zero =>
    intro s t g h
    cases h
    exact ⟨g, rfl⟩
  | succ k ih =>
    intro s t g h
    cases hs : step s with
    | next u =>
      obtain ⟨g', hs'⟩ := step_gainTrk hs g
      rw [run_succ k hs] at h
      rw [run_succ k hs']
      exact ih u t g' h
    | fault f => cases f
    | refused r =>
      have hs' : core.step s = .refused r := hs
      simp [Host.Core.run, hs'] at h

/-- The two states differ in `CTL` alone, and not in it in `HAVE_CHANNEL`. -/
def SameButDeadLatch (s s' : State) : Prop := ∃ x, s' = { s with ctl := x } ∧ (s.pst = .haveChannel → x = s.ctl)

/-- Received bytes read `CTL` in `HAVE_CHANNEL` only, and write it on the way there (R113, R114). -/
theorem byteRelation_sameButDeadLatch : ByteRelation SameButDeadLatch where
  rxq_eq := by rintro s _ ⟨x, rfl, -⟩; rfl
  set_rxq := by rintro s _ q ⟨x, rfl, hx⟩; exact ⟨x, rfl, hx⟩
  receive := by
    rintro s _ b ⟨x, rfl, hx⟩
    by_cases hc : s.pst = .haveChannel
    · cases hx hc
      exact ⟨⟨_, rfl, fun _ => rfl⟩, rfl⟩
    · cases hp : s.pst with
      | waitStatus => cases hm : matchesStatus b s.cfgCh <;> simp [receiveByte, hp, hm, SameButDeadLatch]
      | haveStatus => simp [receiveByte, hp, SameButDeadLatch]
      | haveChannel => exact absurd hp hc

/-- Settles O58: received bytes keep `SameButDeadLatch`; every other operation but `RESET` leaves `PST` and `CTL`, and
reads neither. -/
theorem controllerLatchIsDeadOutsideHaveChannel : Obligations.ControllerLatchIsDeadOutsideHaveChannel := by
  intro i s t x hp h
  obtain ⟨hl, rfl⟩ := (exec_next_iff i s t).1 h
  suffices SameButDeadLatch (perform i s) (perform i { s with ctl := x }) from
    this.imp fun y hy => ⟨(exec_next_iff ..).2 ⟨hl, hy.1⟩, hy.2⟩
  cases hi : receives i with
  | true => exact byteRelation_sameButDeadLatch.perform hi ⟨x, rfl, fun hc => absurd hc hp⟩
  | false =>
    cases hr : isReset i with
    | true =>
      obtain ⟨ch, rfl⟩ := (isReset_true_iff i).1 hr
      exact ⟨0#8, rfl, fun _ => rfl⟩
    | false =>
      obtain ⟨-, -, -, gains, parser, -⟩ := registersAreWrittenOnlyByTheirWriters i s _ h hr
      obtain ⟨hpst, -⟩ := parser hi
      have htrk : (if isGainWrite i then (perform i s).gainTrk else s.gainTrk) = (perform i s).gainTrk := by
        cases hg : isGainWrite i with
        | true => rfl
        | false => exact (gains hg).2.symm
      refine ⟨x, (perform_latches hi hr s s.gainTrk x).trans ?_, fun hc => absurd (hpst ▸ hc) hp⟩
      rw [htrk]

end Sys2Proof.Proofs
end

section
/-! Proofs. The dynamic scene (10_state R35, 43 R158) and the invariants of 10_state R37. -/

namespace Sys2Proof.Proofs

open Sys2Proof.Machine Sys2Proof.Laws

@[simp] theorem scale_zero (g : Gain) : scale 0#8 g = 0#8 := by simp [scale]

/-- A sweep over all channels decides what every channel shows, whatever was shown before it. -/
theorem outAt_runPlan_sweep (p : List (Chan × Byte)) (f : Chan → Byte) (s : State) (c : Chan) :
    outAt (runPlan (p ++ channels.map fun c => (c, f c)) s) c = f c := by
  rw [outAt, runPlan_out, planFile_append, planFile_map, if_pos (mem_channels c)]

theorem outAt_showDynamic (s : State) (c : Chan) : outAt (showDynamic s) c = scale (dynAt s c) s.gainRef := by
  rw [showDynamic_eq]
  exact outAt_runPlan_sweep [] (fun c => scale (dynAt s c) s.gainRef) s c

/-- `ACTD` from the static scene shows every scaled dynamic value (R158). -/
theorem outAt_activateDynamic {s : State} (hs : s.scene = .static) (c : Chan) :
    outAt (activateDynamic s) c = scale (dynAt s c) s.gainRef := by
  obtain ⟨hd, -⟩ | ⟨-, e⟩ := activateDynamic_cases s
  · cases hs.symm.trans hd
  · rw [e]
    exact outAt_runPlan_sweep _ (fun c => scale (dynAt s c) s.gainRef) _ c

/-- `SETDMX` in the static scene stores the raw value and does nothing else (R133). -/
theorem setDmxValue_static {s : State} (hs : s.scene = .static) (c : Chan) (v : Byte) :
    setDmxValue { channel := byteOfChan c, value := v, valid := true } s = setDynAt c v s := by
  obtain ⟨hd | hc, -⟩ | ⟨-, -, -, e⟩ | ⟨-, -, hd, -⟩ :=
    setDmxValue_cases { channel := byteOfChan c, value := v, valid := true } s
  · cases hd
  · exact absurd (byteOfChan_le c) (Nat.not_le.2 hc)
  · rw [e, chanOf_byteOfChan]
  · cases hs.symm.trans hd

/-- Settles O45: the write is stored (`setDmxValue_static`), and `ACTD` shows what is stored
(`outAt_activateDynamic`). -/
theorem pendingWriteSurfacesAtActd : Obligations.PendingWriteSurfacesAtActd := by
  intro c v s t hl hs h
  obtain ⟨-, rfl⟩ := (exec_next_iff _ s t).1 h
  rw [perform, setDmxValue_static hs]
  refine ⟨activateDynamic (setDynAt c v s), whenLive_of_live hl, ?_⟩
  rw [outAt_activateDynamic (s := setDynAt c v s) hs, dynAt, setDynAt_dyn, readSlot_writeSlot_same, setDynAt_gainRef]

/-- INV1 is kept by a gain write: what it writes is clamped. -/
theorem gainsBounded_setGainTo (g : Half) {s : State} (h : GainsBounded s) : GainsBounded (setGainTo g s) := by
  obtain ⟨href, -⟩ := h
  have hg : (clampGain g).toNat ≤ gainUnity := by
    rw [clampGain_toNat]
    exact Nat.min_le_right ..
  rw [setGainTo_eq, GainsBounded, appliedGain]
  refine ⟨?_, hg⟩
  split
  · exact hg
  · exact href

theorem lenAt_setColour (s : State) (k j : Colour) (l : List Chan) :
    lenAt { s with list := setColour s.list k l } j = if k = j then l.length else lenAt s j := by
  by_cases h : k = j
  · subst h; simp [lenAt, listAt]
  · simp [lenAt, listAt, getColour_setColour_ne _ _ h, h]

/-- INV3 is kept by a push: a full list takes none. -/
theorem listsBounded_pushChannel (k : BitVec 2) (channel : Byte) {s : State} (h : ListsBounded s) :
    ListsBounded (pushChannel k channel s) := by
  obtain e | ⟨colour, -, -, hroom, e⟩ := pushChannel_cases k channel s <;> rw [e]
  · exact h
  · intro j
    have hlt : lenAt s colour < s.params.lcap := Nat.lt_of_le_of_ne (h colour) hroom
    rw [lenAt_setColour]
    split
    · simpa [lenAt] using hlt
    · exact h j

theorem listsBounded_of_isListWrite {i : Instr} (hi : isListWrite i = true) {s : State} (h : ListsBounded s) :
    ListsBounded (perform i s) := by
  cases i with
  | sclr => exact fun k => by cases k <;> exact Nat.zero_le _
  | spush colour channel => exact listsBounded_pushChannel colour channel h
  | _ => cases hi

/-- INV4 is kept by a channel write: in the dynamic scene the channel written shows its new value. -/
theorem dynamicShown_setDmxValue (d : DmxValue) {s : State} (h : DynamicShown s) : DynamicShown (setDmxValue d s) := by
  obtain ⟨-, e⟩ | ⟨-, -, hs, e⟩ | ⟨-, -, -, e⟩ := setDmxValue_cases d s <;> rw [e]
  · exact h
  · intro hd
    cases hs.symm.trans hd
  · intro hd c
    have hc := h (by simpa using hd) c
    simp only [outAt, dynAt, emit_out, emit_dyn, emit_gainRef, setDynAt_out, setDynAt_dyn, setDynAt_gainRef,
      readSlot_writeSlot] at hc ⊢
    split
    · rfl
    · exact hc

theorem dynamicShown_showDynamic (s : State) : DynamicShown (showDynamic s) := fun _ c => by
  rw [outAt_showDynamic, showDynamic_eq, dynAt, dynAt, runPlan_dyn, runPlan_gainRef]

theorem dynamicShown_setGainTo (g : Half) {s : State} (h : DynamicShown s) : DynamicShown (setGainTo g s) := by
  obtain ⟨-, e⟩ | ⟨-, hs, e⟩ | ⟨-, -, e⟩ := setGainTo_cases g s <;> rw [e]
  · exact h
  · intro hd
    cases hs.symm.trans hd
  · exact dynamicShown_showDynamic _

theorem dynamicShown_activateStatic (s : State) : DynamicShown (activateStatic s) := fun hd => by
  rw [activateStatic_eq] at hd
  cases hd

theorem dynamicShown_activateDynamic {s : State} (h : DynamicShown s) : DynamicShown (activateDynamic s) := by
  cases hs : s.scene with
  | dynamic => rwa [activateDynamic, hs]
  | static =>
    intro _ c
    rw [outAt_activateDynamic hs, activateDynamic_eq]
    rfl

theorem dynamicShown_resetTo (ch : MidiChan) (s : State) : DynamicShown (resetTo ch s) := fun _ c => by
  simp [outAt, dynAt, resetTo]

/-- INV4 is kept by every operation of R3; `OUTEVENT`, which is none, could break it. -/
theorem dynamicShown_perform {i : Instr} (ho : isOperation i = true) {s : State} (h : DynamicShown s) :
    DynamicShown (perform i s) := by
  cases i with
  | nop | begin | sclr | srgb => exact h
  | setdmx | setcc => exact dynamicShown_setDmxValue _ h
  | setgain | setatt => exact dynamicShown_setGainTo _ h
  | spush colour channel => rw [perform, pushChannel_eq]; exact h
  | acts => exact dynamicShown_activateStatic s
  | actd => exact dynamicShown_activateDynamic h
  | poll | rxbyte | rxbyteStatus | ccframe =>
    exact perform_keeps_of_receives (fun _ _ _ _ h => h) (fun d _ => dynamicShown_setDmxValue d) rfl h
  | outevent => cases ho
  | reset ch => exact dynamicShown_resetTo ch s

theorem eachChanges_inRange {es : List OutEvent} {shown : ChanFile} (h : EachChanges shown es) :
    ∀ e ∈ es, e.channel.toNat ≤ chMax := by
  induction es generalizing shown with
  | nil => exact fun _ he => nomatch he
  | cons e es ih =>
    obtain ⟨hc, -, hes⟩ := h
    exact List.forall_mem_cons.2 ⟨hc, ih hes⟩

/-- INV1, INV3 and INV4 hold right after a `RESET`, and the trace is what it was (R200). -/
theorem inv_resetTo (ch : MidiChan) {s : State} (h : EventsInRange s) : Inv (resetTo ch s) where
  events := h
  gains _ := ⟨Nat.le_refl 1024, Nat.le_refl 1024⟩
  lists _ k := by cases k <;> exact Nat.zero_le _
  shown _ := dynamicShown_resetTo ch s

/-- Every operation of R3 keeps the invariants. -/
theorem inv_of_exec {i : Instr} {s t : State} (hs : Inv s) (ho : isOperation i = true) (h : exec i s = .next t) :
    Inv t := by
  cases hr : isReset i with
  | true =>
    obtain ⟨ch, rfl⟩ := (isReset_true_iff i).1 hr
    cases h
    exact inv_resetTo ch hs.events
  | false =>
    obtain ⟨es, htrace, hes, -⟩ := eventsAreExactlyTheChangesOfOut i s t hr h
    obtain ⟨-, ⟨-, hparams, hlive⟩, -, gains, -, lists, -⟩ := registersAreWrittenOnlyByTheirWriters i s t h hr
    obtain ⟨-, rfl⟩ := (exec_next_iff i s t).1 h
    refine ⟨?_, fun hl => ?_, fun hl => ?_, fun hl => dynamicShown_perform ho (hs.shown (hlive ▸ hl))⟩
    · rw [EventsInRange, htrace]
      exact List.forall_mem_append.2 ⟨hs.events, eachChanges_inRange hes⟩
    · have hb := hs.gains (hlive ▸ hl)
      cases hg : isGainWrite i with
      | true =>
        obtain ⟨g, e⟩ := perform_of_isGainWrite hg s
        exact e ▸ gainsBounded_setGainTo g hb
      | false =>
        obtain ⟨href, htrk⟩ := gains hg
        rwa [GainsBounded, href, htrk]
    · have hb := hs.lists (hlive ▸ hl)
      cases hk : isListWrite i with
      | true => exact listsBounded_of_isListWrite hk hb
      | false =>
        intro k
        rw [lenAt, lists hk k, hparams]
        exact hb k

/-- Settles O60: waiting and the byte source touch no register the invariants speak of, and every operation keeps them
(`inv_of_exec`). -/
theorem everyStepKeepsTheInvariants : Obligations.EveryStepKeepsTheInvariants := by
  intro s t hs h
  have beside (l : List Event) (q : List Byte) : Inv { s with input := l, rxq := q } :=
    ⟨hs.events, hs.gains, hs.lists, hs.shown⟩
  obtain ⟨-, rfl⟩ | ⟨e, rest, -, ⟨bytes, -, rfl⟩ | ⟨i, -, ho, hx⟩⟩ := step_cases h
  · exact hs
  · exact beside rest (s.rxq ++ bytes)
  · exact inv_of_exec (beside rest s.rxq) ho hx

/-- Settles O59: `State.reset` is the state after a `RESET 0` that found nothing emitted (`inv_resetTo`). -/
theorem invariantsHoldAfterReset : Obligations.InvariantsHoldAfterReset :=
  inv_resetTo 0#4 (s := State.reset) fun _ he => nomatch he

/-- Settles O11: the two files and the colour tables are uniform, and every other register is written out in
`State.reset`. -/
theorem resetStateHasTheTableValues : Obligations.ResetStateHasTheTableValues := by
  have files (c : Chan) : dynAt State.reset c = 0#8 ∧ outAt State.reset c = 0#8 :=
    ⟨readSlot_replicate 0#8 c, readSlot_replicate 0#8 c⟩
  have perColour (k : Colour) : colorAt State.reset k = 0#8 ∧ lenAt State.reset k = 0 := by
    cases k <;> exact ⟨rfl, rfl⟩
  exact ⟨files, rfl, rfl, rfl, rfl, rfl, rfl, perColour, rfl, rfl, rfl, rfl, rfl, rfl⟩

end Sys2Proof.Proofs
end

section
/-! Proofs. The byte source, the channel index space and repeated operations (20_memory R51, R52, R60). -/

namespace Sys2Proof.Proofs

open Sys2Proof.Machine Sys2Proof.Laws

/-- Settles O9: the two clauses are `step_of_src` and `step_of_input_nil`. -/
theorem stepFeedsTheByteSourceOrWaits : Obligations.StepFeedsTheByteSourceOrWaits :=
  ⟨fun _ _ _ => step_of_src, fun _ => step_of_input_nil⟩

/-- After a `RESET` every operation completes (R180, R201). -/
theorem exec_of_live (i : Instr) {s : State} (hl : s.live = true) : exec i s = .next (perform i s) :=
  (exec_next_iff i s _).2 ⟨.inr hl, rfl⟩

/-- An index above 127 discards a raw channel write (R133). -/
theorem setDmxValue_of_outOfRange {d : DmxValue} (h : 128 ≤ d.channel.toNat) (s : State) : setDmxValue d s = s := by
  simp [setDmxValue, outOfRange_true_iff.2 h]

/-- An index above 127 discards a push, whatever the colour (R152). -/
theorem pushChannel_of_outOfRange (k : BitVec 2) {channel : Byte} (h : 128 ≤ channel.toNat) (s : State) :
    pushChannel k channel s = s := by
  obtain e | ⟨-, -, hc, -⟩ := pushChannel_cases k channel s
  · exact e
  · omega

/-- A channel write that is not discarded stores its value, in either scene (R133). -/
theorem dynAt_setDmxValue_same {d : DmxValue} (hv : d.valid = true) (hc : d.channel.toNat ≤ 127) (s : State) :
    dynAt (setDmxValue d s) (chanOf d.channel) = d.value := by
  rw [dynAt, setDmxValue_eq]
  simp [dmxFile, hv, hc]

/-- A channel write touches no slot but its own (R142). -/
theorem setDmxValue_other {d : DmxValue} {c : Chan} (h : c ≠ chanOf d.channel) (s : State) :
    dynAt (setDmxValue d s) c = dynAt s c ∧ outAt (setDmxValue d s) c = outAt s c := by
  obtain ⟨-, e⟩ | ⟨-, -, -, e⟩ | ⟨-, -, -, e⟩ := setDmxValue_cases d s <;> rw [e]
  · exact ⟨rfl, rfl⟩
  · exact ⟨readSlot_writeSlot_ne s.dyn d.value h.symm, rfl⟩
  · simp [dynAt, outAt, emit_out, readSlot_writeSlot_ne _ _ h.symm]

/-- The mapper takes every index above 127 as 127 (R103). -/
theorem mapChannel_of_outOfRange {channel : Byte} (h : 128 ≤ channel.toNat) : mapChannel channel = 127#8 :=
  BitVec.eq_of_toNat_eq (by rw [mapChannel_toNat]; exact Nat.min_eq_right (by omega))

/-- The mapped write of an index above 127 stores the mapped value on channel 127 and touches no other slot. -/
theorem setDmxValue_mapCc_of_outOfRange {channel : Byte} (h : 128 ≤ channel.toNat) (value : Byte) (s : State) :
    dynAt (setDmxValue (mapCc channel value) s) 127#7 = (mapCc channel value).value ∧
      ∀ d, d ≠ 127#7 → dynAt (setDmxValue (mapCc channel value) s) d = dynAt s d ∧
        outAt (setDmxValue (mapCc channel value) s) d = outAt s d := by
  have hm : (mapCc channel value).channel = 127#8 := mapChannel_of_outOfRange h
  have hc : chanOf (mapCc channel value).channel = 127#7 := by rw [hm]; decide
  refine ⟨?_, fun d hd => setDmxValue_other (hc ▸ hd) s⟩
  rw [← hc]
  exact dynAt_setDmxValue_same rfl (by rw [hm]; decide) s

/-- Settles O23: `SETDMX` and `SPUSH` discard the index; `SETCC` and the byte that completes a frame both perform the
channel write of the mapped pair, whose channel is 127 (`setDmxValue_mapCc_of_outOfRange`). -/
theorem rangePoliciesStayDistinct : Obligations.RangePoliciesStayDistinct := by
  intro channel value valid k s hl hc
  refine ⟨?_, ?_, ?_, ⟨_, exec_of_live _ hl, ?_⟩, ⟨_, exec_of_live _ hl, ?_⟩⟩
  · rw [exec_of_live _ hl, perform, setDmxValue_of_outOfRange hc]
  · rw [exec_of_live _ hl, perform, pushChannel_of_outOfRange k hc]
  · have hm : mapCc channel value = mapCc 127#8 value := by
      rw [mapCc, mapChannel_of_outOfRange hc]
      rfl
    rw [exec_of_live _ hl, exec_of_live _ hl, perform, perform, hm]
  · exact setDmxValue_mapCc_of_outOfRange hc value s
  · exact setDmxValue_mapCc_of_outOfRange hc value { s with pst := .waitStatus, ctl := channel }

/-- `Emit` of the value shown does nothing (R131). -/
theorem emit_of_shown {c : Chan} {v : Byte} {s : State} (h : outAt s c = v) : emit c v s = s := by
  simp [emit, changed, h]

@[simp] theorem outAt_emit_same (c : Chan) (v : Byte) (s : State) : outAt (emit c v s) c = v := by
  simp [outAt, emit_out]

@[simp] theorem setDynAt_dynAt (c : Chan) (s : State) : setDynAt c (dynAt s c) s = s := by
  rw [setDynAt, dynAt, writeSlot_readSlot]

/-- A channel write of what the slot holds, already shown in the dynamic scene, does nothing (R133, R136). -/
theorem setDmxValue_of_stored {d : DmxValue} {s : State} (hdyn : dynAt s (chanOf d.channel) = d.value)
    (hout : s.scene = .dynamic → outAt s (chanOf d.channel) = scale d.value s.gainRef) : setDmxValue d s = s := by
  have hset : setDynAt (chanOf d.channel) d.value s = s := by rw [← hdyn, setDynAt_dynAt]
  obtain ⟨-, e⟩ | ⟨-, -, -, e⟩ | ⟨-, -, hs, e⟩ := setDmxValue_cases d s
  · exact e
  · exact e.trans hset
  · rw [e, hset, emit_of_shown (hout hs)]

theorem setDmxValue_setDmxValue (d : DmxValue) (s : State) :
    setDmxValue d (setDmxValue d s) = setDmxValue d s := by
  obtain ⟨-, e⟩ | ⟨-, -, hs, e⟩ | ⟨-, -, -, e⟩ := setDmxValue_cases d s <;> rw [e]
  · exact e
  · exact setDmxValue_of_stored (by simp [dynAt]) fun hd => by cases hs.symm.trans hd
  · exact setDmxValue_of_stored (by simp [dynAt]) fun _ => by simp

@[simp] theorem applies_self (g : Gain) : applies g g = false := by
  simp [applies, absDiff]

/-- A gain already tracked and within the dead zone of the applied one changes nothing (R137, R138). -/
theorem setGainTo_of_tracked {g : Half} {s : State} (htrk : s.gainTrk = clampGain g)
    (href : applies (clampGain g) s.gainRef = false) : setGainTo g s = s := by
  obtain ⟨-, e⟩ | ⟨ha, -⟩ | ⟨ha, -⟩ := setGainTo_cases g s
  · rw [e, ← htrk]
  · cases href.symm.trans ha
  · cases href.symm.trans ha

/-- After a gain write its gain is within the dead zone of the applied one: either it was, or it is the applied one. -/
theorem applies_appliedGain (g : Half) (applied : Gain) : applies (clampGain g) (appliedGain g applied) = false := by
  cases h : applies (clampGain g) applied <;> simp [appliedGain, h]

theorem setGainTo_setGainTo (g : Half) (s : State) : setGainTo g (setGainTo g s) = setGainTo g s := by
  apply setGainTo_of_tracked
  · rw [setGainTo_eq]
  · rw [setGainTo_eq]
    exact applies_appliedGain g s.gainRef

theorem activateStatic_of_static {s : State} (hs : s.scene = .static) : activateStatic s = s := by
  rw [activateStatic, hs]

theorem activateDynamic_of_dynamic {s : State} (hs : s.scene = .dynamic) : activateDynamic s = s := by
  rw [activateDynamic, hs]

/-- A repeatable operation performed on what it gave gives the same again (R60, R136, R160). -/
theorem perform_perform {i : Instr} (hi : isRepeatable i = true) (s : State) :
    perform i (perform i s) = perform i s := by
  cases i with
  | nop | begin | sclr | srgb | reset => rfl
  | setdmx | setcc => exact setDmxValue_setDmxValue _ s
  | setgain g => exact setGainTo_setGainTo g s
  | setatt raw =>
    have hp : (perform (.setatt raw) s).params = s.params := by rw [perform, setGainTo_eq]
    rw [perform, hp]
    exact setGainTo_setGainTo _ s
  | acts => exact activateStatic_of_static (by rw [perform, activateStatic_eq])
  | actd => exact activateDynamic_of_dynamic (by rw [perform, activateDynamic_eq])
  | outevent c v => exact emit_of_shown (outAt_emit_same c v s)
  | spush | poll | rxbyte | rxbyteStatus | ccframe => cases hi

/-- An operation that completes leaves the core live (R201). -/
theorem live_of_exec {i : Instr} {s t : State} (h : exec i s = .next t) : t.live = true := by
  obtain ⟨hl, rfl⟩ := (exec_next_iff i s t).1 h
  cases hr : isReset i with
  | true =>
    obtain ⟨ch, rfl⟩ := (isReset_true_iff i).1 hr
    rfl
  | false =>
    obtain ⟨-, ⟨-, -, hlive⟩, -⟩ := registersAreWrittenOnlyByTheirWriters i s _ h hr
    rw [hlive]
    exact hl.resolve_left (by simp [hr])

/-- Settles O56: what the operation gave is live (`live_of_exec`), and performing it there gives the same again
(`perform_perform`). -/
theorem repeatedOperationChangesNothing : Obligations.RepeatedOperationChangesNothing := by
  intro i s t hi h
  have hl := live_of_exec h
  obtain ⟨-, rfl⟩ := (exec_next_iff i s t).1 h
  rw [exec_of_live i hl, perform_perform hi s]

end Sys2Proof.Proofs
end

section
/-! Proofs. The decoder and the encoder (30_encoding R70 to R92). -/

namespace Sys2Proof.Proofs

open Sys2Proof.Machine Sys2Proof.Laws

/-- Settles O1: one round-trip lemma per row (`Laws.RoundTrip`). -/
theorem decodeEncodeAgree : Obligations.DecodeEncodeAgree := by
  intro i
  cases i with
  | nop => exact RoundTrip.nop
  | begin => exact RoundTrip.begin
  | setdmx valid channel value => exact RoundTrip.setdmx valid channel value
  | setcc channel value => exact RoundTrip.setcc channel value
  | setgain gain => exact RoundTrip.setgain gain
  | setatt raw => exact RoundTrip.setatt raw
  | sclr => exact RoundTrip.sclr
  | spush colour channel => exact RoundTrip.spush colour channel
  | srgb red green blue => exact RoundTrip.srgb red green blue
  | acts => exact RoundTrip.acts
  | actd => exact RoundTrip.actd
  | poll => exact RoundTrip.poll
  | rxbyte b => exact RoundTrip.rxbyte b
  | rxbyteStatus n => exact RoundTrip.rxbyteStatus n
  | ccframe n c v => exact RoundTrip.ccframe n c v
  | outevent c v => exact RoundTrip.outevent c v
  | reset ch => exact RoundTrip.reset ch

theorem wellFormed_decodeCommand (w : Command) : WellFormed (decodeCommand w) := by
  unfold decodeCommand
  split <;> rfl

theorem wellFormed_decodeByte (b : Byte) : WellFormed (decodeByte b) := by
  unfold decodeByte
  split
  · rfl
  · simpa [WellFormed, wellFormed, hasMarker] using ‹¬hasMarker b = true›

/-- Settles O2: a byte spelled `RXBYTE` lacks the marker (`wellFormed_decodeByte`), and every other spelling is
well formed. -/
theorem decodedOperationIsWellFormed : Obligations.DecodedOperationIsWellFormed := by
  intro e i h
  cases e with
  | cmd w =>
    cases h
    exact wellFormed_decodeCommand w
  | rx b =>
    cases h
    exact wellFormed_decodeByte b
  | frame f =>
    simp only [decode, decodeFrame] at h
    split at h <;> cases h
    rfl
  | outp e =>
    simp only [decode, decodeOutput] at h
    split at h <;> cases h
    rfl
  | rst ch =>
    cases h
    rfl
  | src bytes => cases h

/-- A field of a unit, by division and remainder on the unit's number. -/
theorem extractLsb'_eq_ofNat_div {n : Nat} (x : BitVec n) (start len : Nat) :
    x.extractLsb' start len = BitVec.ofNat len (x.toNat / 2 ^ start) := by
  rw [BitVec.extractLsb', Nat.shiftRight_eq_div_pow]

/-- R75: the opcode is the word's number divided by `2 ^ 24`. -/
theorem opcodeOf_toNat (w : Command) : (opcodeOf w).toNat = w.toNat / 2 ^ 24 := by
  have := w.isLt
  rw [opcodeOf, extractLsb'_eq_ofNat_div, BitVec.toNat_ofNat]
  omega

theorem getLsbD_eq_div_mod {n : Nat} (x : BitVec n) (i : Nat) : x.getLsbD i = (x.toNat / 2 ^ i % 2 == 1) := by
  rw [BitVec.getLsbD, Nat.testBit_eq_decide_div_mod_eq, beq_eq_decide]

/-- Settles O3: the opcode selects the row of `decodeCommand` (`opcodeOf_toNat`), and each field of the row is read by
division and remainder (`extractLsb'_eq_ofNat_div`, `getLsbD_eq_div_mod`). -/
theorem commandFieldsAreThoseOfTheTable : Obligations.CommandFieldsAreThoseOfTheTable := by
  intro w
  simp only [decode, decodeCommand, opcodeOf_toNat, extractLsb'_eq_ofNat_div, getLsbD_eq_div_mod]
  refine ⟨?_, ?_, ?_, ?_, ?_, ?_, ?_, ?_, ?_, ?_, ?_, ?_⟩ <;> intro hop <;> simp only [hop, pow_zero, Nat.div_one]

/-- R86: a reserved opcode selects no row. -/
theorem decodeCommand_of_reserved {w : Command} (h : w.toNat / 2 ^ 24 ∉ assignedOpcodes) :
    decodeCommand w = .nop := by
  rw [← opcodeOf_toNat] at h
  unfold decodeCommand
  split <;> simp_all [assignedOpcodes]

/-- Settles O4: the word decodes as `NOP` (`decodeCommand_of_reserved`), and the step performs that. -/
theorem reservedOpcodeIsPerformedAsNop : Obligations.ReservedOpcodeIsPerformedAsNop := by
  intro w s rest h
  have hd : decode (.cmd w) = .ok .nop := congrArg Except.ok (decodeCommand_of_reserved h)
  exact ⟨hd, fun hl hi => (step_of_decode hi hd rfl).trans (exec_of_live .nop hl)⟩

/-- Words that agree on a mask agree on every field the mask covers. -/
theorem extractLsb'_eq_of_and_eq {n : Nat} {w u m : BitVec n} (h : w &&& m = u &&& m) {start len : Nat}
    (hm : m.extractLsb' start len = BitVec.allOnes len) : w.extractLsb' start len = u.extractLsb' start len := by
  simpa [BitVec.extractLsb'_and, hm] using congrArg (BitVec.extractLsb' start len) h

theorem getLsbD_eq_of_and_eq {n : Nat} {w u m : BitVec n} (h : w &&& m = u &&& m) {i : Nat}
    (hm : m.getLsbD i = true) : w.getLsbD i = u.getLsbD i := by
  simpa [hm] using congrArg (BitVec.getLsbD · i) h

/-- Settles O5: each row of `decodeCommand` reads only fields its mask covers (`extractLsb'_eq_of_and_eq`). -/
theorem reservedPayloadBitsAreIgnored : Obligations.ReservedPayloadBitsAreIgnored := by
  intro w u hop h
  refine congrArg Except.ok ?_
  rw [decodeCommand, decodeCommand, opcodeOf_toNat, opcodeOf_toNat, ← hop]
  generalize w.toNat / 2 ^ 24 = op at h
  -- The rows with operands, by their place in `decodeCommand`; the others answer one operation for both words.
  split
  case h_3 =>
    rw [getLsbD_eq_of_and_eq h (by decide), extractLsb'_eq_of_and_eq h (start := 8) (by decide),
      extractLsb'_eq_of_and_eq h (start := 0) (by decide)]
  case h_4 | h_8 =>
    rw [extractLsb'_eq_of_and_eq h (start := 8) (by decide), extractLsb'_eq_of_and_eq h (start := 0) (by decide)]
  case h_5 | h_6 => rw [extractLsb'_eq_of_and_eq h (by decide)]
  case h_9 =>
    rw [extractLsb'_eq_of_and_eq h (start := 16) (by decide), extractLsb'_eq_of_and_eq h (start := 8) (by decide),
      extractLsb'_eq_of_and_eq h (start := 0) (by decide)]
  all_goals rfl

/-- R70: the marker is the byte's number divided by 16. -/
theorem hasMarker_iff (b : Byte) : hasMarker b = true ↔ b.toNat / 16 = 0xB := by
  have := b.isLt
  rw [hasMarker, beq_iff_eq, extractLsb'_eq_ofNat_div, ← BitVec.toNat_inj, BitVec.toNat_ofNat]
  change _ = 0xB ↔ _
  omega

/-- R70: a frame's marker is its number divided by `2 ^ 20`. -/
theorem hasMarker_frame_iff (f : BitVec 24) : hasMarker (f.extractLsb' 16 8) = true ↔ f.toNat / 2 ^ 20 = 0xB := by
  have := f.isLt
  rw [hasMarker_iff, extractLsb'_eq_ofNat_div, BitVec.toNat_ofNat]
  omega

theorem getLsbD_fifteen_iff (e : Half) : e.getLsbD 15 = true ↔ 2 ^ 15 ≤ e.toNat := by
  have := e.isLt
  rw [getLsbD_eq_div_mod, beq_iff_eq]
  omega

/-- Settles O7: each format's test is arithmetic (`hasMarker_iff`, `hasMarker_frame_iff`, `getLsbD_fifteen_iff`), and so
are its fields (`extractLsb'_eq_ofNat_div`). -/
theorem otherUnitsDecode : Obligations.OtherUnitsDecode := by
  refine ⟨fun b => ?_, fun f => ?_, fun e => ?_, fun _ => rfl⟩
  · simp only [decode, decodeByte, hasMarker_iff, extractLsb'_eq_ofNat_div, pow_zero, Nat.div_one]
    exact ⟨fun h => by rw [if_pos h], fun h => by rw [if_neg h]⟩
  · simp only [decode, decodeFrame, hasMarker_frame_iff]
    simp only [extractLsb'_eq_ofNat_div, pow_zero, Nat.div_one]
    exact ⟨fun h => by rw [if_pos h], fun h => by rw [if_neg h]⟩
  · simp only [decode, decodeOutput, getLsbD_fifteen_iff, extractLsb'_eq_ofNat_div, pow_zero, Nat.div_one]
    exact ⟨fun h => by rw [if_neg (Nat.not_le.2 h)], fun h => by rw [if_pos h]⟩

/-- Settles O6, by running the decoder on the nineteen units. -/
theorem specWordsDecode : Obligations.SpecWordsDecode := by
  unfold Obligations.SpecWordsDecode
  decide

end Sys2Proof.Proofs
end

section
/-! Proofs. Received bytes one by one and as a frame (30_encoding R72, R90, 41_midi_parser R112). -/

namespace Sys2Proof.Proofs

open Sys2Proof.Machine Sys2Proof.Laws

/-- R72: the byte of a marker and a channel. -/
theorem ccMarker_append (n : MidiChan) : ccMarker ++ n = BitVec.ofNat 8 (0xB0 + n.toNat) := by
  have := n.isLt
  apply BitVec.eq_of_toNat_eq
  rw [BitVec.toNat_append, ← Nat.shiftLeft_add_eq_or_of_lt n.isLt, BitVec.toNat_ofNat]
  simp
  omega

theorem ccMarker_append_toNat (n : MidiChan) : (ccMarker ++ n).toNat = 0xB0 + n.toNat := by
  have := n.isLt
  rw [ccMarker_append, BitVec.toNat_ofNat]
  omega

/-- Settles O37: the row receives the byte `0xB0 + n` (`ccMarker_append`), which is the status byte of `CFG_CH` exactly
if `n` is `CFG_CH`. -/
theorem statusByteRow : Obligations.StatusByteRow := by
  refine fun n s => ⟨by rw [← ccMarker_append]; rfl, fun hl hp => ?_⟩
  rw [exec_of_live _ hl, perform]
  have hn : (ccMarker ++ n).toNat = 0xB0 + s.cfgCh.toNat ↔ n = s.cfgCh := by
    rw [ccMarker_append_toNat, Nat.add_left_cancel_iff, BitVec.toNat_inj]
  obtain ⟨-, hb, e⟩ | ⟨-, hb, e⟩ | ⟨h, -⟩ | ⟨h, -⟩ := receiveByte_cases (ccMarker ++ n) s
  · rw [e, if_pos (hn.1 hb)]
  · rw [e, if_neg fun h => hb (hn.2 h)]
  · cases hp.symm.trans h
  · cases hp.symm.trans h

/-- Either spelling of a byte receives the byte (R72, log 11). -/
theorem perform_decodeByte (b : Byte) (s : State) : perform (decodeByte b) s = (receiveByte b s).1 := by
  unfold decodeByte
  split
  case isTrue h =>
    have hb : ccMarker ++ b.extractLsb' 0 4 = b := by
      have := (hasMarker_iff b).1 h
      apply BitVec.eq_of_toNat_eq
      rw [ccMarker_append_toNat, BitVec.extractLsb'_toNat, Nat.shiftRight_zero]
      omega
    rw [perform, hb]
  case isFalse => rfl

/-- Receiving a byte does not look at the events to come. -/
theorem receiveByte_setInput (b : Byte) (s : State) (l : List Event) :
    (receiveByte b { s with input := l }).1 = { (receiveByte b s).1 with input := l } := by
  refine (congrArg Prod.fst (receiveByte_beside b s s.gainTrk s.rxq l)).trans ?_
  rw [receiveByte_frame b s]

theorem receiveByte_live (b : Byte) (s : State) : (receiveByte b s).1.live = s.live := by
  rw [receiveByte_frame]

/-- The step of a live core that takes a byte receives it. -/
theorem step_rx (b : Byte) (rest : List Event) {s : State} (hl : s.live = true) :
    step { s with input := .rx b :: rest } = .next { (receiveByte b s).1 with input := rest } := by
  rw [← receiveByte_setInput, ← perform_decodeByte]
  exact (step_of_decode rfl rfl (isOperation_decodeByte b)).trans (exec_of_live (s := { s with input := rest }) _ hl)

/-- The steps that take some bytes feed them to the parser. -/
theorem run_rx (bytes : List Byte) (rest : List Event) {s : State} (hl : s.live = true) :
    Host.Core.run core bytes.length { s with input := bytes.map .rx ++ rest } =
      .next (feed bytes { s with input := rest }).1 := by
  induction bytes generalizing s with
  | nil => rfl
  | cons b bytes ih =>
    have hfeed : (feed (b :: bytes) { s with input := rest }).1 =
        (feed bytes { (receiveByte b s).1 with input := rest }).1 := by
      rw [← receiveByte_setInput]
      rfl
    rw [hfeed]
    exact (run_succ _ (step_rx b (bytes.map .rx ++ rest) hl)).trans (ih ((receiveByte_live b s).trans hl))

/-- Settles O40: the three steps feed the parser the three bytes (`run_rx`), and so does the frame. -/
theorem frameIsItsThreeBytes : Obligations.FrameIsItsThreeBytes := fun n c v s rest hl =>
  (run_rx [ccMarker ++ n, c, v] rest hl).trans (exec_of_live (s := { s with input := rest }) (.ccframe n c v) hl).symm

end Sys2Proof.Proofs
end

section
/-! Proofs. The events of `SETSCENE` (30_encoding R90, 43_scene R152 to R154). -/

namespace Sys2Proof.Proofs

open Sys2Proof.Machine Sys2Proof.Laws

/-- A run that reaches a state goes on from there. -/
theorem run_add {j : Nat} (k : Nat) {s t : State} (h : Host.Core.run core j s = .next t) :
    Host.Core.run core (j + k) s = Host.Core.run core k t := by
  induction j generalizing s with
  | zero =>
    cases h
    rw [Nat.zero_add]
  | succ j ih =>
    cases hs : step s with
    | next u =>
      rw [run_succ j hs] at h
      rw [Nat.succ_add, run_succ (j + k) hs, ih h]
    | fault f => cases f
    | refused r =>
      have hs' : core.step s = .refused r := hs
      simp [Host.Core.run, hs'] at h

/-- The step of a live core that takes an encoded operation performs it. -/
theorem step_encode {i : Instr} (hw : WellFormed i) (ho : isOperation i = true) (rest : List Event) {s : State}
    (hl : s.live = true) : step { s with input := encode i :: rest } = .next (perform i { s with input := rest }) :=
  (step_of_decode rfl (decodeEncodeAgree i hw) ho).trans (exec_of_live (s := { s with input := rest }) i hl)

/-- The lists after some pushes of one colour. -/
def pushAll (k : BitVec 2) (lcap : Nat) (cs : List Byte) (p : PerColour (List Chan)) : PerColour (List Chan) :=
  cs.foldl (fun p c => pushedLists k c lcap p) p

/-- The steps that take the `SPUSH`es of one colour push its channels and do nothing else. -/
theorem run_pushEvents (k : BitVec 2) (cs : List Byte) (rest : List Event) {s : State} (hl : s.live = true) :
    Host.Core.run core cs.length { s with input := pushEvents k cs ++ rest } =
      .next { s with input := rest, list := pushAll k s.params.lcap cs s.list } := by
  induction cs generalizing s with
  | nil => rfl
  | cons c cs ih =>
    refine (run_succ _ (step_encode (i := .spush k c) rfl rfl (pushEvents k cs ++ rest) hl)).trans ?_
    rw [perform, pushChannel_eq]
    exact ih (s := { s with list := pushedLists k c s.params.lcap s.list }) hl

theorem setColour_getColour {α : Type} (p : PerColour α) (k : Colour) : setColour p k (getColour p k) = p := by
  cases k <;> rfl

theorem setColour_setColour {α : Type} (p : PerColour α) (k : Colour) (a b : α) :
    setColour (setColour p k a) k b = setColour p k b := by
  cases k <;> rfl

/-- Pushes of one colour append its channels up to 127, in order, until the list is full (R152). -/
theorem pushAll_eq {k : BitVec 2} {colour : Colour} (hk : colourOf k = some colour) {lcap : Nat} (cs : List Byte)
    {p : PerColour (List Chan)} (hp : (getColour p colour).length ≤ lcap) :
    pushAll k lcap cs p =
      setColour p colour ((getColour p colour ++ (cs.filter fun c => c.toNat ≤ chMax).map chanOf).take lcap) := by
  induction cs generalizing p with
  | nil => simp [pushAll, List.take_of_length_le hp, setColour_getColour]
  | cons c cs ih =>
    change pushAll k lcap cs (pushedLists k c lcap p) = _
    by_cases hc : c.toNat ≤ 127
    · by_cases hfull : (getColour p colour).length = lcap
      · have e : pushedLists k c lcap p = p := by simp [pushedLists, hk, hfull]
        rw [e, ih hp, List.take_left' hfull, List.take_left' hfull]
      · have e : pushedLists k c lcap p = setColour p colour (getColour p colour ++ [chanOf c]) := by
          simp [pushedLists, hk, hc, hfull]
        rw [e, ih (by simp; omega), setColour_setColour, getColour_setColour_same]
        simp [hc]
    · have e : pushedLists k c lcap p = p := by simp [pushedLists, hk, hc]
      rw [e, ih hp]
      simp [hc]

/-- A run through the `SPUSH`es of a colour whose list is empty goes on with that list loaded (R154). -/
theorem run_pushEvents_of_empty {k : BitVec 2} {colour : Colour} (hk : colourOf k = some colour) (cs : List Byte)
    (m : Nat) (rest : List Event) {p : PerColour (List Chan)} (hp : getColour p colour = []) {s : State}
    (hl : s.live = true) :
    Host.Core.run core (cs.length + m) { s with list := p, input := pushEvents k cs ++ rest } =
      Host.Core.run core m
        { s with list := setColour p colour (loadedList s.params.lcap cs), input := rest } := by
  have hload : pushAll k s.params.lcap cs p = setColour p colour (loadedList s.params.lcap cs) := by
    rw [pushAll_eq hk cs (by simp [hp]), hp]
    rfl
  rw [← hload]
  exact run_add m (run_pushEvents k cs rest (s := { s with list := p }) hl)

/-- Settles O46: `SCLR` empties the lists, the pushes of each colour load its list (`run_pushEvents_of_empty`), and
`SRGB` writes the colours. -/
theorem setsceneLoadsTheStaticScene : Obligations.SetsceneLoadsTheStaticScene := by
  intro r g b red green blue s rest hl
  have hlen : r.length + g.length + b.length + 2 = r.length + (g.length + (b.length + 1)) + 1 := by omega
  have hevents : sceneEvents r g b red green blue ++ rest =
      encode .sclr :: (pushEvents 0#2 r ++ (pushEvents 1#2 g ++
        (pushEvents 2#2 b ++ encode (.srgb red green blue) :: rest))) := by
    simp [sceneEvents]
  rw [hlen, hevents]
  refine (run_succ _ (step_encode rfl rfl _ hl)).trans ?_
  refine (run_pushEvents_of_empty (colour := .red) rfl r _ _ rfl hl).trans ?_
  refine (run_pushEvents_of_empty (colour := .green) rfl g _ _ rfl hl).trans ?_
  refine (run_pushEvents_of_empty (colour := .blue) rfl b _ _ rfl hl).trans ?_
  exact run_succ 0 (step_encode (i := .srgb red green blue) rfl rfl rest hl (s := { s with
    list := ⟨loadedList s.params.lcap r, loadedList s.params.lcap g, loadedList s.params.lcap b⟩ }))

end Sys2Proof.Proofs
end

section
/-! Proofs. The DmxValue and the CC-to-DMX mapper (40_value_and_mapper R100 to R104). -/

namespace Sys2Proof.Proofs

open Sys2Proof.Machine Sys2Proof.Laws

/-- The mapper keeps every index up to 127 (R103). -/
theorem mapChannel_of_inRange {channel : Byte} (h : channel.toNat ≤ 127) : mapChannel channel = channel :=
  BitVec.eq_of_toNat_eq (by rw [mapChannel_toNat]; exact Nat.min_eq_left h)

/-- Settles O14: each half of the mapped pair is a function of its own input by construction (`mapCc`), so
independence is definitional; the laws are those of `mapValue` and `mapChannel` on either side of 127. -/
theorem mapperLaws : Obligations.MapperLaws := by
  intro c v
  have hvalue : (mapCc c v).value.toNat = if v.toNat ≤ 127 then 2 * v.toNat else 254 := mapValue_toNat v
  refine ⟨rfl, fun h => ?_, fun h => ?_, mapChannel_of_inRange, fun h => ?_, fun _ => rfl, fun _ => rfl⟩
  · rw [hvalue, if_pos h]
  · rw [hvalue, if_neg (by omega)]
  · exact congrArg BitVec.toNat (mapChannel_of_outOfRange h)

/-- DmxValue equality compares channel and value only (R102). -/
theorem dvEqual_iff {a b : DmxValue} : dvEqual a b = true ↔ a.channel = b.channel ∧ a.value = b.value := by
  rw [dvEqual, Bool.and_eq_true, beq_iff_eq, beq_iff_eq]

/-- Settles O15: equality is `dvEqual_iff`, under which the default, whose fields are those of `DV(0, 0)` (D24), equals
that pair although only one of the two is valid. -/
theorem dmxValueValidityAndEquality : Obligations.DmxValueValidityAndEquality :=
  ⟨fun _ _ => rfl, rfl, fun _ _ => dvEqual_iff, dvEqual_iff.2 ⟨rfl, rfl⟩⟩

end Sys2Proof.Proofs
end

section
/-! Proofs. The MIDI parser (41_midi_parser R110 to R121): what a byte does in each parser state, and what a frame and
a poll make of it. -/

namespace Sys2Proof.Proofs

open Sys2Proof.Machine Sys2Proof.Laws

/-- R112: the status byte of `CFG_CH` starts a frame. -/
theorem receiveByte_of_status {b : Byte} {s : State} (hp : s.pst = .waitStatus) (hb : b.toNat = 0xB0 + s.cfgCh.toNat) :
    receiveByte b s = ({ s with pst := .haveStatus }, false) := by
  simp [receiveByte, hp, (matchesStatus_iff b s.cfgCh).2 hb]

/-- R112: while the parser waits for a status byte, every byte but that of `CFG_CH` is dropped. -/
theorem receiveByte_of_noise {b : Byte} {s : State} (hp : s.pst = .waitStatus) (hb : b.toNat ≠ 0xB0 + s.cfgCh.toNat) :
    receiveByte b s = (s, false) := by
  have hm : matchesStatus b s.cfgCh = false := Bool.eq_false_iff.2 fun h => hb ((matchesStatus_iff b s.cfgCh).1 h)
  simp [receiveByte, hp, hm]

/-- R113: the byte after the status byte is captured as the controller number. -/
theorem receiveByte_of_haveStatus (b : Byte) {s : State} (hp : s.pst = .haveStatus) :
    receiveByte b s = ({ s with ctl := b, pst := .haveChannel }, false) := by
  simp [receiveByte, hp]

/-- R114: the byte after the controller number completes the frame and performs its `SETCC`. -/
theorem receiveByte_of_haveChannel (b : Byte) {s : State} (hp : s.pst = .haveChannel) :
    receiveByte b s = (setDmxValue (mapCc s.ctl b) { s with pst := .waitStatus }, true) := by
  simp [receiveByte, hp, setCcValue]

/-- Two operations on live cores give the same outcome if they give the same state. -/
theorem exec_eq_of_perform_eq {i j : Instr} {s t : State} (hs : s.live = true) (ht : t.live = true)
    (h : perform i s = perform j t) : exec i s = exec j t := by
  rw [exec_of_live i hs, exec_of_live j ht, h]

/-- Settles O35: the two branches of `WAIT_STATUS`, `receiveByte_of_status` and `receiveByte_of_noise`. -/
theorem onlyOneByteStartsAFrame : Obligations.OnlyOneByteStartsAFrame := by
  intro b s hl hp
  rw [exec_of_live _ hl, perform]
  exact ⟨fun hb => by rw [receiveByte_of_status hp hb], fun hb => by rw [receiveByte_of_noise hp hb]⟩

/-- A channel write leaves the parser's registers (R142). -/
theorem setDmxValue_parser (d : DmxValue) (s : State) :
    (setDmxValue d s).pst = s.pst ∧ (setDmxValue d s).ctl = s.ctl := by
  rw [setDmxValue_eq]
  exact ⟨rfl, rfl⟩

/-- Settles O36: the byte is the controller number in `HAVE_STATUS` (`receiveByte_of_haveStatus`) and the value in
`HAVE_CHANNEL` (`receiveByte_of_haveChannel`), where the `SETCC` leaves the parser as it finds it. -/
theorem bytesInsideAFrameAreCaptured : Obligations.BytesInsideAFrameAreCaptured := by
  intro b s hl
  refine ⟨fun hp => ?_, fun hp => ?_⟩
  · rw [exec_of_live _ hl, perform, receiveByte_of_haveStatus b hp]
  · have hx : exec (.rxbyte b) s = exec (.setcc s.ctl b) { s with pst := .waitStatus } :=
      exec_eq_of_perform_eq hl hl (congrArg Prod.fst (receiveByte_of_haveChannel b hp))
    exact ⟨hx, _, hx.trans (exec_of_live (s := { s with pst := .waitStatus }) _ hl), setDmxValue_parser _ _⟩

/-- R119: a frame for `CFG_CH` passes through the three parser states and performs one channel write. -/
theorem perform_ccframe_of_match (c v : Byte) {s : State} (hp : s.pst = .waitStatus) :
    perform (.ccframe s.cfgCh c v) s = setDmxValue (mapCc c v) { s with ctl := c } := by
  rw [perform, receiveByte_of_status hp (ccMarker_append_toNat s.cfgCh), receiveByte_of_haveStatus c rfl,
    receiveByte_of_haveChannel v rfl, ← hp]

/-- Settles O38: the frame is the `SETCC` of its two bytes (`perform_ccframe_of_match`), which leaves the parser as it
finds it. -/
theorem matchingFramePerformsItsSetcc : Obligations.MatchingFramePerformsItsSetcc := by
  intro c v s hl hp
  have hx : exec (.ccframe s.cfgCh c v) s = exec (.setcc c v) { s with ctl := c } :=
    exec_eq_of_perform_eq hl hl (perform_ccframe_of_match c v hp)
  obtain ⟨hpst, hctl⟩ := setDmxValue_parser (mapCc c v) { s with ctl := c }
  exact ⟨hx, _, hx.trans (exec_of_live (s := { s with ctl := c }) _ hl), hpst.trans hp, hctl⟩

/-- Settles O39: the status byte names another channel, the data bytes have bit 7 clear, so each of the three is
dropped (`receiveByte_of_noise`). -/
theorem frameForAnotherChannelIsDropped : Obligations.FrameForAnotherChannelIsDropped := by
  intro n c v s hl hp hn hc hv
  have hstatus : (ccMarker ++ n).toNat ≠ 0xB0 + s.cfgCh.toNat := by
    rwa [ccMarker_append_toNat, Ne, Nat.add_left_cancel_iff, BitVec.toNat_inj]
  rw [exec_of_live _ hl, perform, receiveByte_of_noise hp hstatus, receiveByte_of_noise hp (by omega),
    receiveByte_of_noise hp (by omega)]

/-- Receiving a byte does not look at the byte source. -/
theorem receiveByte_setRxq (b : Byte) (s : State) (q : List Byte) :
    receiveByte b { s with rxq := q } = ({ (receiveByte b s).1 with rxq := q }, (receiveByte b s).2) := by
  refine (receiveByte_beside b s s.gainTrk q s.input).trans ?_
  rw [receiveByte_frame b s]

/-- Bytes complete no frame exactly if the first does not and the others, after it, do not. -/
theorem feed_cons_complete_none (b : Byte) (bytes : List Byte) (s : State) :
    (feed (b :: bytes) s).2 = 0 ↔ (receiveByte b s).2 = false ∧ (feed bytes (receiveByte b s).1).2 = 0 := by
  cases h : (receiveByte b s).2 <;> simp [feed, h]

/-- A poll of bytes of which the early ones complete no frame is a poll of these, and one of the rest from where it
stopped (R116, R171). -/
theorem pollLoop_append (early late : List Byte) {s : State} (h : (feed early s).2 = 0) :
    pollLoop (early ++ late) { s with rxq := early ++ late } =
      pollLoop late { pollLoop early { s with rxq := early } with rxq := late } := by
  induction early generalizing s with
  | nil => rfl
  | cons b early ih =>
    obtain ⟨hb, hrest⟩ := (feed_cons_complete_none b early s).1 h
    have skip (w q : List Byte) :
        pollLoop (b :: q) { s with rxq := w } = pollLoop q { (receiveByte b s).1 with rxq := q } :=
      pollLoop_skip ((receiveByte_setRxq b s q).trans (by rw [hb]))
    rw [List.cons_append, skip, skip, ih hrest]

/-- Settles O44: the two polls are the one of `pollLoop_append`. -/
theorem partialFrameResumesInALaterPoll : Obligations.PartialFrameResumesInALaterPoll := by
  intro s t early late hl hfeed h
  have ht := live_of_exec h
  obtain ⟨-, rfl⟩ := (exec_next_iff _ _ t).1 h
  exact exec_eq_of_perform_eq ht hl (pollLoop_append early late hfeed).symm

/-- An operation that receives bytes is none of the writers of the gains, the configuration and the scene. -/
theorem only_parser_flags_of_receives {i : Instr} (hi : receives i = true) :
    isReset i = false ∧ isSwitch i = false ∧ isGainWrite i = false ∧ isListWrite i = false ∧
      isColourWrite i = false := by
  cases i with
  | poll | rxbyte | rxbyteStatus | ccframe => exact ⟨rfl, rfl, rfl, rfl, rfl⟩
  | _ => cases hi

/-- The mapper's channel as a slot (R103). -/
theorem chanOf_mapChannel_toNat (c : Byte) : (chanOf (mapChannel c)).toNat = min c.toNat 127 := by
  rw [chanOf, BitVec.extractLsb'_toNat, mapChannel_toNat, Nat.shiftRight_zero]
  omega

/-- A byte that completes no frame moves the parser and touches no channel (R112, R113). -/
theorem receiveByte_silent (b : Byte) {s : State} (hp : s.pst ≠ .haveChannel) :
    (∀ c, dynAt (receiveByte b s).1 c = dynAt s c) ∧ Silent s (receiveByte b s).1 := by
  obtain ⟨-, -, e⟩ | ⟨-, -, e⟩ | ⟨-, e⟩ | ⟨h, -⟩ := receiveByte_cases b s
  case inr.inr.inr => exact absurd h hp
  all_goals rw [e]; exact ⟨fun _ => rfl, fun _ => rfl, rfl⟩

/-- Settles O51: what received bytes leave is the access lists read for them (`only_parser_flags_of_receives`); the
byte that completes a frame writes its mapped channel (`setDmxValue_other`). -/
theorem receivedByteFrame : Obligations.ReceivedByteFrame := by
  refine ⟨fun i s t hi h => ?_, fun b s t h => ?_⟩
  · obtain ⟨hreset, hswitch, hgain, hlist, hcolour⟩ := only_parser_flags_of_receives hi
    obtain ⟨hcfg, hbeside, scene, gains, -, lists, colours, -, source⟩ :=
      registersAreWrittenOnlyByTheirWriters i s t h hreset
    exact ⟨gains hgain, ⟨colours hcolour, lists hlist⟩, scene hswitch, hcfg, hbeside, source⟩
  · obtain ⟨-, rfl⟩ := (exec_next_iff _ s t).1 h
    refine ⟨receiveByte_silent b, fun hp c hc => ?_⟩
    have hne : c ≠ chanOf (mapCc s.ctl b).channel := by
      rintro rfl
      exact hc (chanOf_mapChannel_toNat s.ctl)
    rw [perform, receiveByte_of_haveChannel b hp]
    exact setDmxValue_other hne _

end Sys2Proof.Proofs
end

section
/-! Proofs. The gain stage and the change detector (42_store_and_gain R130, R131). -/

namespace Sys2Proof.Proofs

open Sys2Proof.Machine Sys2Proof.Laws

/-- Unity is the identity (R130). -/
theorem scale_unity (v : Byte) : scale v 1024#11 = v :=
  BitVec.eq_of_toNat_eq <| (scale_toNat v (g := 1024#11) (by decide)).trans <|
    Nat.mul_div_left v.toNat (by decide)

theorem scale_gain_zero (v : Byte) : scale v 0#11 = 0#8 := by simp [scale]

theorem scale_mono {v w : Byte} {g h : Gain} (hv : v.toNat ≤ w.toNat) (hg : g.toNat ≤ h.toNat)
    (hh : h.toNat ≤ 1024) : (scale v g).toNat ≤ (scale w h).toNat := by
  rw [scale_toNat v (hg.trans hh), scale_toNat w hh]
  exact Nat.div_le_div_right (Nat.mul_le_mul hv hg)

/-- No gain amplifies: unity, the highest, does not (R130). -/
theorem scale_le (v : Byte) {g : Gain} (hg : g.toNat ≤ 1024) : (scale v g).toNat ≤ v.toNat :=
  calc (scale v g).toNat
    _ ≤ (scale v 1024#11).toNat := scale_mono le_rfl hg le_rfl
    _ = v.toNat := by rw [scale_unity]

/-- Settles O16: the value is `scale_toNat`; the laws are `scale_le`, `scale_unity`, the two zeros and `scale_mono`. -/
theorem scaleLaws : Obligations.ScaleLaws := fun v g hg =>
  ⟨scale_toNat v hg, scale_le v hg, scale_unity v, scale_gain_zero v, scale_zero g,
    fun _ hv => scale_mono hv le_rfl hg, fun _ hh hgh => scale_mono le_rfl hgh hh⟩

theorem outAt_emit (c : Chan) (v : Byte) (s : State) (d : Chan) :
    outAt (emit c v s) d = if d = c then v else outAt s d := by
  simp only [outAt, emit_out, readSlot_writeSlot, eq_comm]

/-- `Emit` delivers its event exactly on a change (R131). -/
theorem emit_trace_eq (c : Chan) (v : Byte) (s : State) :
    (emit c v s).trace =
      s.trace ++ if outAt s c = v then [] else [{ channel := byteOfChan c, value := v }] :=
  emit_trace c v s

/-- Settles O17: on the value shown `emit_of_shown`; otherwise the slot (`outAt_emit`), the event (`emit_trace_eq`) and
the frame (`emit_frame`). -/
theorem emitFiresOnChangeOnly : Obligations.EmitFiresOnChangeOnly := fun c v s =>
  ⟨emit_of_shown, fun h => ⟨outAt_emit c v s, by rw [emit_trace_eq, if_neg h], emit_frame c v s⟩⟩

/-- Settles O41: `OUTEVENT` performs an `Emit`, whose slot, event and frame are those of O17. -/
theorem outputEventIsAnEmit : Obligations.OutputEventIsAnEmit := fun c v s hl =>
  ⟨emit c v s, exec_of_live _ hl, outAt_emit c v s, emit_trace_eq c v s, emit_frame c v s⟩

end Sys2Proof.Proofs
end

section
/-! Proofs. The channel writes (42_store_and_gain R133, R135, R142). -/

namespace Sys2Proof.Proofs

open Sys2Proof.Machine Sys2Proof.Laws

/-- An invalid DmxValue discards a raw channel write (R133). -/
theorem setDmxValue_of_invalid {d : DmxValue} (h : d.valid = false) (s : State) : setDmxValue d s = s := by
  simp [setDmxValue, dvValid, h]

/-- Settles O19: the two discards are `setDmxValue_of_invalid` and `setDmxValue_of_outOfRange`. -/
theorem setdmxDiscardsInvalidAndOutOfRange : Obligations.SetdmxDiscardsInvalidAndOutOfRange := by
  intro valid channel value s hl h
  rw [exec_of_live _ hl, perform]
  obtain hv | hc := h
  · rw [setDmxValue_of_invalid hv]
  · rw [setDmxValue_of_outOfRange hc]

theorem dynAt_setDynAt (c : Chan) (v : Byte) (s : State) (d : Chan) :
    dynAt (setDynAt c v s) d = if d = c then v else dynAt s d := by
  simp only [dynAt, setDynAt_dyn, readSlot_writeSlot, eq_comm]

/-- `SETDMX` in the dynamic scene stores the raw value and emits the scaled one (R133). -/
theorem setDmxValue_dynamic {s : State} (hs : s.scene = .dynamic) (c : Chan) (v : Byte) :
    setDmxValue { channel := byteOfChan c, value := v, valid := true } s =
      emit c (scale v s.gainRef) (setDynAt c v s) := by
  simp [setDmxValue, dvValid, outOfRange_false_iff.2 (byteOfChan_le c), hs]

/-- Settles O20: the write stores the raw value and emits the scaled one (`setDmxValue_dynamic`). -/
theorem setdmxInDynamicSceneShowsTheScaledValue : Obligations.SetdmxInDynamicSceneShowsTheScaledValue := by
  intro c v s hl hs
  refine ⟨_, exec_of_live _ hl, fun d => ?_, fun d => ?_, ?_, setDmxValue_frame _ s⟩ <;>
    rw [perform, setDmxValue_dynamic hs]
  · rw [dynAt, emit_dyn]
    exact dynAt_setDynAt c v s d
  · exact outAt_emit c _ (setDynAt c v s) d
  · exact emit_trace_eq c _ (setDynAt c v s)

/-- Settles O21: in the static scene the write is `setDynAt` alone (`setDmxValue_static`). -/
theorem setdmxInStaticSceneIsPending : Obligations.SetdmxInStaticSceneIsPending := fun c v s hl hs =>
  ⟨setDynAt c v s, by rw [exec_of_live _ hl, perform, setDmxValue_static hs], dynAt_setDynAt c v s, rfl⟩

/-- A channel write is at most one `Emit` (R133). -/
theorem dmxPlan_length_le (d : DmxValue) (scene : Scene) (g : Gain) : (dmxPlan d scene g).length ≤ 1 := by
  unfold dmxPlan
  split <;> simp

theorem setDmxValue_trace_length (d : DmxValue) (s : State) :
    (setDmxValue d s).trace.length ≤ s.trace.length + 1 := by
  rw [setDmxValue_eq, List.length_append]
  exact Nat.add_le_add_left ((planEvents_length _ s.out).trans (dmxPlan_length_le d s.scene s.gainRef)) _

/-- Settles O22: the mapped pair is the mapper's by definition (`mapCc`); its channel is in range, so the write is not
discarded (`dynAt_setDmxValue_same`). -/
theorem setccWritesTheMappedPair : Obligations.SetccWritesTheMappedPair := by
  intro c v s hl
  have hchan : chanOf (mapChannel c) = BitVec.ofNat 7 (min c.toNat 127) :=
    BitVec.eq_of_toNat_eq (by rw [chanOf_mapChannel_toNat, BitVec.toNat_ofNat]; omega)
  have hrange : (mapCc c v).channel.toNat ≤ 127 := (mapChannel_toNat c).trans_le (Nat.min_le_right _ _)
  refine ⟨rfl, _, exec_of_live _ hl, ?_, setDmxValue_trace_length (mapCc c v) s⟩
  rw [← hchan]
  exact dynAt_setDmxValue_same (d := mapCc c v) rfl hrange s

/-- A channel write touches no slot but the one its channel names: an index above 127 names none (R133, R142). -/
theorem setDmxValue_of_byteOfChan_ne {d : DmxValue} {c : Chan} (h : byteOfChan c ≠ d.channel) (s : State) :
    dynAt (setDmxValue d s) c = dynAt s c ∧ outAt (setDmxValue d s) c = outAt s c := by
  cases hr : outOfRange d.channel with
  | true =>
    rw [setDmxValue_of_outOfRange (outOfRange_true_iff.1 hr)]
    exact ⟨rfl, rfl⟩
  | false =>
    refine setDmxValue_other (fun hc => h ?_) s
    rw [hc, byteOfChan_chanOf hr]

/-- The registers a channel write leaves (R142, R143). -/
theorem setDmxValue_keeps (d : DmxValue) (s : State) :
    ParserSame s (setDmxValue d s) ∧ GainsSame s (setDmxValue d s) ∧ StaticSame s (setDmxValue d s) ∧
      (setDmxValue d s).scene = s.scene ∧ (setDmxValue d s).rxq = s.rxq ∧ BesideSame s (setDmxValue d s) := by
  rw [setDmxValue_frame]
  exact ⟨⟨rfl, rfl, rfl⟩, ⟨rfl, rfl⟩, ⟨fun _ => rfl, fun _ => rfl⟩, rfl, rfl, rfl, rfl, rfl⟩

/-- Settles O47: the other slots are left by `setDmxValue_of_byteOfChan_ne`, or for the clamped channel of a mapped
pair by `setDmxValue_other`; the registers by `setDmxValue_keeps`. -/
theorem channelWriteFrame : Obligations.ChannelWriteFrame := by
  refine ⟨fun valid channel value s t h => ?_, fun channel value s t h => ?_⟩ <;>
    obtain ⟨-, rfl⟩ := (exec_next_iff _ s t).1 h
  · exact ⟨fun d hd => setDmxValue_of_byteOfChan_ne hd s, setDmxValue_keeps _ s⟩
  · refine ⟨fun d hd => setDmxValue_other ?_ s, setDmxValue_keeps _ s⟩
    rintro rfl
    exact hd (chanOf_mapChannel_toNat channel)

end Sys2Proof.Proofs
end

section
/-! Proofs. The gain writes (42_store_and_gain R137 to R143). -/

namespace Sys2Proof.Proofs

open Sys2Proof.Machine Sys2Proof.Laws

/-- The dead-zone test on the clamped operand (R137, R138). -/
theorem applies_clampGain_iff (g : Half) (applied : Gain) :
    applies (clampGain g) applied = true ↔ 6 ≤ absDiff (min g.toNat 1024) applied.toNat := by
  rw [applies_iff, clampGain_toNat, Nat.succ_le_iff]

/-- R137: a gain inside the dead zone is tracked. -/
theorem setGainTo_of_not_applies {g : Half} {s : State} (ha : applies (clampGain g) s.gainRef = false) :
    setGainTo g s = { s with gainTrk := clampGain g } := by
  simp [setGainTo, ha]

/-- R140: in the static scene an applied gain is written and nothing is shown. -/
theorem setGainTo_static {g : Half} {s : State} (ha : applies (clampGain g) s.gainRef = true)
    (hs : s.scene = .static) : setGainTo g s = { s with gainRef := clampGain g, gainTrk := clampGain g } := by
  simp [setGainTo, ha, hs]

/-- R137: in the dynamic scene an applied gain is written and the scene shown again. -/
theorem setGainTo_dynamic {g : Half} {s : State} (ha : applies (clampGain g) s.gainRef = true)
    (hs : s.scene = .dynamic) :
    setGainTo g s = showDynamic { s with gainRef := clampGain g, gainTrk := clampGain g } := by
  simp [setGainTo, ha, hs]

/-- Settles O24: the gain is tracked and nothing else is done (`setGainTo_of_not_applies`). -/
theorem setgainInsideTheDeadZoneIsTrackedOnly : Obligations.SetgainInsideTheDeadZoneIsTrackedOnly := by
  intro g s hl hd
  have ha : applies (clampGain g) s.gainRef = false := by
    rw [← Bool.not_eq_true, applies_clampGain_iff]
    omega
  refine ⟨_, exec_of_live _ hl, ?_⟩
  rw [perform, setGainTo_of_not_applies ha]
  exact ⟨clampGain_toNat g, rfl⟩

/-- Settles O26: both gains are written and nothing else is done (`setGainTo_static`). -/
theorem setgainInStaticSceneIsSilent : Obligations.SetgainInStaticSceneIsSilent := by
  intro g s hl hs hd
  refine ⟨_, exec_of_live _ hl, ?_⟩
  rw [perform, setGainTo_static ((applies_clampGain_iff g s.gainRef).2 hd) hs]
  exact ⟨clampGain_toNat g, rfl, rfl⟩

/-- The events of the sweep that shows the dynamic scene: one per changed channel, ascending (R137, R158). -/
theorem showDynamic_trace (s : State) :
    (showDynamic s).trace = s.trace ++ sweepEvents (fun c => scale (dynAt s c) s.gainRef) s.out := by
  rw [showDynamic_eq, runPlan_trace, planEvents_sweep _ channels channels_nodup, sweepEvents]

/-- Settles O25: the gain is applied and the dynamic scene shown (`setGainTo_dynamic`); what that shows is
`outAt_showDynamic`, its events are `showDynamic_trace`. -/
theorem setgainOutsideTheDeadZoneRescales : Obligations.SetgainOutsideTheDeadZoneRescales := by
  intro g s hl hs hd
  have e := setGainTo_dynamic ((applies_clampGain_iff g s.gainRef).2 hd) hs
  have href : (setGainTo g s).gainRef = clampGain g := by rw [e, showDynamic_frame]
  have htrk : (setGainTo g s).gainTrk = clampGain g := by rw [e, showDynamic_frame]
  refine ⟨setGainTo g s, exec_of_live _ hl, ?_, htrk.trans href.symm, ?_, ?_, setGainTo_frame g s⟩ <;> rw [href]
  · exact clampGain_toNat g
  · rw [e]
    exact outAt_showDynamic _
  · rw [e]
    exact showDynamic_trace _

/-- In the static scene a gain write shows nothing (R140). -/
theorem setGainTo_silent_of_static {s : State} (hs : s.scene = .static) (g : Half) : Silent s (setGainTo g s) := by
  have hplan : gainPlan g s.dyn s.scene s.gainRef = [] := if_neg (by simp [hs])
  rw [setGainTo_eq, hplan]
  exact ⟨fun _ => rfl, List.append_nil _⟩

/-- The registers a gain write leaves (R142, R143). -/
theorem setGainTo_keeps (g : Half) (s : State) :
    (∀ c, dynAt (setGainTo g s) c = dynAt s c) ∧ ParserSame s (setGainTo g s) ∧ StaticSame s (setGainTo g s) ∧
      (setGainTo g s).scene = s.scene ∧ (setGainTo g s).rxq = s.rxq ∧ BesideSame s (setGainTo g s) := by
  rw [setGainTo_frame]
  exact ⟨fun _ => rfl, ⟨rfl, rfl, rfl⟩, ⟨fun _ => rfl, fun _ => rfl⟩, rfl, rfl, rfl, rfl, rfl⟩

/-- Settles O48: both operations are a gain write (`perform_of_isGainWrite`), which leaves what `setGainTo_keeps` says
and in the static scene shows nothing (`setGainTo_silent_of_static`). -/
theorem gainWriteFrame : Obligations.GainWriteFrame := by
  intro i s t hi h
  obtain ⟨-, rfl⟩ := (exec_next_iff i s t).1 h
  obtain ⟨g, e⟩ := perform_of_isGainWrite hi s
  obtain ⟨hdyn, hparser, hstatic, hscene, hrxq, hbeside⟩ := setGainTo_keeps g s
  rw [e]
  exact ⟨hdyn, hparser, hstatic, hscene, hrxq, hbeside, fun hs => setGainTo_silent_of_static hs g⟩

end Sys2Proof.Proofs
end

section
/-! Proofs. The static-scene configuration (43_scene R151 to R154). -/

namespace Sys2Proof.Proofs

open Sys2Proof.Machine Sys2Proof.Laws

/-- A push in range to a list with room appends (R152). -/
theorem pushChannel_of_room {k : BitVec 2} {colour : Colour} {s : State} (hk : colourOf k = some colour)
    (hroom : lenAt s colour < s.params.lcap) (c : Chan) :
    pushChannel k (byteOfChan c) s = { s with list := setColour s.list colour (listAt s colour ++ [c]) } := by
  simp [pushChannel, hk, outOfRange_false_iff.2 (byteOfChan_le c), hroom.ne]

/-- A full list discards a push, whatever the channel (R152). -/
theorem pushChannel_of_full {k : BitVec 2} {colour : Colour} {s : State} (hk : colourOf k = some colour)
    (hfull : lenAt s colour = s.params.lcap) (channel : Byte) : pushChannel k channel s = s := by
  simp [pushChannel, hk, hfull]

/-- Colour 3 names no list (R81). -/
theorem pushChannel_of_reserved (channel : Byte) (s : State) : pushChannel 3#2 channel s = s := rfl

/-- Settles O29: the push appends (`pushChannel_of_room`), and `setColour` replaces one colour's list alone. -/
theorem spushAppendsToItsList : Obligations.SpushAppendsToItsList := by
  intro k colour c s hl hk hroom
  refine ⟨_, (exec_of_live _ hl).trans (congrArg _ (pushChannel_of_room hk hroom c)), ?_, ?_, fun j hj => ?_, rfl⟩
  · exact getColour_setColour_same _ _ _
  · exact (lenAt_setColour s colour colour _).trans (by simp [lenAt])
  · exact getColour_setColour_ne _ _ hj.symm

/-- Settles O30: the grounds are `pushChannel_of_reserved`, `pushChannel_of_outOfRange` and `pushChannel_of_full`. -/
theorem spushDiscards : Obligations.SpushDiscards := by
  refine ⟨⟨rfl, rfl, rfl⟩, fun k channel s hl h => ?_⟩
  rw [exec_of_live _ hl, perform]
  obtain rfl | hc | ⟨colour, hk, hfull⟩ := h
  · rw [pushChannel_of_reserved]
  · rw [pushChannel_of_outOfRange k hc]
  · rw [pushChannel_of_full hk hfull]

/-- Settles O28: `SCLR` writes three empty lists. -/
theorem sclrEmptiesTheLists : Obligations.SclrEmptiesTheLists := fun _ hl =>
  ⟨_, exec_of_live .sclr hl, fun k => by cases k <;> exact ⟨rfl, rfl⟩, rfl⟩

/-- Settles O31: `SRGB` writes the colour table it is given. -/
theorem srgbSetsTheColours : Obligations.SrgbSetsTheColours := fun r g b _ hl =>
  ⟨_, exec_of_live (.srgb r g b) hl, rfl, rfl, rfl, rfl⟩

/-- A configuration write leaves every register but the lists and the colours (R151 to R153). -/
theorem perform_configuration_frame {i : Instr} (hi : isListWrite i = true ∨ isColourWrite i = true) (s : State) :
    perform i s = { s with color := (perform i s).color, list := (perform i s).list } := by
  cases i with
  | sclr | srgb => rfl
  | spush colour channel => rw [perform, pushChannel_frame]
  | _ => simp [isListWrite, isColourWrite] at hi

/-- A configuration write writes the lists or the colours, never both, and is no `RESET`. -/
theorem configuration_flags {i : Instr} (hi : isListWrite i = true ∨ isColourWrite i = true) :
    isReset i = false ∧ isListWrite i = !isColourWrite i := by
  cases i with
  | sclr | spush | srgb => exact ⟨rfl, rfl⟩
  | _ => simp [isListWrite, isColourWrite] at hi

/-- Settles O49: no register but the lists and the colours is written (`perform_configuration_frame`), and of these
two only the one the operation is a writer of (O52, `configuration_flags`). -/
theorem configurationFrame : Obligations.ConfigurationFrame := by
  intro i s t hi h
  obtain ⟨hreset, hexclusive⟩ := configuration_flags hi
  obtain ⟨-, -, -, -, -, lists, colours, -⟩ := registersAreWrittenOnlyByTheirWriters i s t h hreset
  obtain ⟨-, rfl⟩ := (exec_next_iff i s t).1 h
  have hcolours : isListWrite i = true → ∀ k, colorAt (perform i s) k = colorAt s k := fun hw =>
    colours (by simpa [hw] using hexclusive)
  have hlists : isColourWrite i = true → ∀ k, listAt (perform i s) k = listAt s k := fun hw =>
    lists (by simpa [hw] using hexclusive)
  rw [perform_configuration_frame hi] at hcolours hlists ⊢
  exact ⟨fun _ => rfl, ⟨fun _ => rfl, rfl⟩, ⟨rfl, rfl, rfl⟩, ⟨rfl, rfl⟩, rfl, rfl, ⟨rfl, rfl, rfl⟩, hcolours,
    hlists⟩

end Sys2Proof.Proofs
end

section
/-! Proofs. The scene switch (43_scene R156 to R160). -/

namespace Sys2Proof.Proofs

open Sys2Proof.Machine Sys2Proof.Laws

/-- The events of a sweep over all channels: one per changed channel, ascending (R13). -/
theorem planEvents_channels (f : Chan → Byte) (shown : ChanFile) :
    planEvents shown (channels.map fun c => (c, f c)) = sweepEvents f shown :=
  planEvents_sweep f channels channels_nodup shown

/-- The blackout of every channel leaves a dark file, whatever was shown (R157). -/
theorem planFile_blackout (shown : ChanFile) :
    planFile shown (channels.map fun c => (c, 0#8)) = Vector.replicate 128 0#8 :=
  chanFile_ext fun c => by rw [planFile_map fun _ => 0#8, if_pos (mem_channels c), readSlot_replicate]

/-- The last colour that lists a channel decides it; a channel no colour lists is left (R157 (g)). -/
theorem readSlot_planFile_staticPlan (shown : ChanFile) (s : State) (value : Colour → Byte) (c : Chan) :
    readSlot (planFile shown (staticPlan s value)) c =
      if c ∈ listAt s .blue then value .blue
      else if c ∈ listAt s .green then value .green
      else if c ∈ listAt s .red then value .red
      else readSlot shown c := by
  have hplan : staticPlan s value = ((listAt s .red).map fun c => (c, value .red)) ++
      (((listAt s .green).map fun c => (c, value .green)) ++ (listAt s .blue).map fun c => (c, value .blue)) := by
    simp [staticPlan, colours]
  rw [hplan, planFile_append, planFile_append, planFile_map fun _ => value .blue,
    planFile_map fun _ => value .green, planFile_map fun _ => value .red]

/-- The `Emit`s of `ACTS` in the dynamic scene leave the static scene on every channel (R157 (g)). -/
theorem outAt_activateStatic {s : State} (hs : s.scene = .dynamic) (c : Chan) :
    outAt (activateStatic s) c = staticValue s c := by
  rw [activateStatic_eq, actsPlan, if_pos hs, outAt, planFile_append, planFile_blackout,
    readSlot_planFile_staticPlan, readSlot_replicate, staticValue]

/-- Settles O32: the blackout is one sweep (`planEvents_channels`) that leaves a dark file (`planFile_blackout`), from
which the static scene is lit (`outAt_activateStatic`). -/
theorem actsBlacksOutThenLightsTheStaticScene : Obligations.ActsBlacksOutThenLightsTheStaticScene := by
  intro s hl hs
  refine ⟨activateStatic s, exec_of_live .acts hl, ?_, outAt_activateStatic hs, ?_, activateStatic_frame s⟩ <;>
    rw [activateStatic_eq]
  rw [actsPlan, if_pos hs, planEvents_append, planEvents_channels fun _ => 0#8, planFile_blackout, List.append_assoc]

/-- Settles O33: the lit entries go dark, which leaves what their events say (`planEvents_replay`), and from there one
sweep (`planEvents_channels`) shows the dynamic scene (`outAt_activateDynamic`). -/
theorem actdRestoresTheDynamicScene : Obligations.ActdRestoresTheDynamicScene := by
  intro s hl hs
  refine ⟨activateDynamic s, exec_of_live .actd hl, ?_, outAt_activateDynamic hs, ?_, activateDynamic_frame s⟩ <;>
    rw [activateDynamic_eq]
  obtain ⟨-, hdark⟩ := planEvents_replay (staticPlan s fun _ => 0#8) s.out
  rw [actdPlan, if_pos hs, planEvents_append, planEvents_channels fun c => scale (dynAt s c) s.gainRef, hdark,
    List.append_assoc]

/-- Settles O34: both switches are repeatable (O56), and each does nothing in its own scene
(`activateStatic_of_static`, `activateDynamic_of_dynamic`). -/
theorem sceneSwitchIsIdempotent : Obligations.SceneSwitchIsIdempotent := by
  refine ⟨fun s t => repeatedOperationChangesNothing .acts s t rfl,
    fun s t => repeatedOperationChangesNothing .actd s t rfl, fun s hl hs => ?_, fun s hl hs => ?_⟩ <;>
    rw [exec_of_live _ hl, perform]
  · rw [activateStatic_of_static hs]
  · rw [activateDynamic_of_dynamic hs]

/-- A scene switch leaves every register but `SCENE` and `OUT` (R156, R158). -/
theorem perform_switch_frame {i : Instr} (hi : isSwitch i = true) (s : State) :
    perform i s =
      { s with scene := (perform i s).scene, out := (perform i s).out, trace := (perform i s).trace } := by
  cases i with
  | acts => exact activateStatic_frame s
  | actd => exact activateDynamic_frame s
  | _ => cases hi

/-- Settles O50: `perform_switch_frame`, register by register. -/
theorem sceneSwitchFrame : Obligations.SceneSwitchFrame := by
  intro i s t hi h
  obtain ⟨-, rfl⟩ := (exec_next_iff i s t).1 h
  rw [perform_switch_frame hi]
  exact ⟨fun _ => rfl, ⟨rfl, rfl, rfl⟩, ⟨rfl, rfl⟩, ⟨fun _ => rfl, fun _ => rfl⟩, rfl, rfl, rfl, rfl⟩

end Sys2Proof.Proofs
end

section
/-! Proofs. The silence of the static scene (43_scene R161). -/

namespace Sys2Proof.Proofs

open Sys2Proof.Machine Sys2Proof.Laws

theorem silent_refl (s : State) : Silent s s := ⟨fun _ => rfl, rfl⟩

theorem silent_trans {s t u : State} : Silent s t → Silent t u → Silent s u :=
  fun ⟨hout, htrace⟩ ⟨hout', htrace'⟩ => ⟨fun c => (hout' c).trans (hout c), htrace'.trans htrace⟩

/-- In the static scene a channel write shows nothing (R133). -/
theorem setDmxValue_silent_of_static {s : State} (hs : s.scene = .static) (d : DmxValue) :
    Silent s (setDmxValue d s) := by
  have hplan : dmxPlan d s.scene s.gainRef = [] := if_neg (by simp [hs])
  rw [setDmxValue_eq, hplan]
  exact ⟨fun _ => rfl, List.append_nil _⟩

/-- In the static scene received bytes show nothing: the frames they complete are channel writes (R111, R171). -/
theorem silent_of_receives {i : Instr} (hi : receives i = true) {s : State} (hs : s.scene = .static) :
    Silent s (perform i s) := by
  have write (d : DmxValue) (t : State) (h : t.scene = .static ∧ Silent s t) :
      (setDmxValue d t).scene = .static ∧ Silent s (setDmxValue d t) := by
    obtain ⟨ht, hsilent⟩ := h
    obtain ⟨-, -, -, hscene, -⟩ := setDmxValue_keeps d t
    exact ⟨hscene.trans ht, silent_trans hsilent (setDmxValue_silent_of_static ht d)⟩
  obtain ⟨-, hsilent⟩ :=
    perform_keeps_of_receives (P := fun t => t.scene = .static ∧ Silent s t) (fun _ _ _ _ h => h) write hi
      ⟨hs, silent_refl s⟩
  exact hsilent

/-- In the static scene every operation of R3 but `ACTD` and `RESET` shows nothing (R161). -/
theorem perform_silent_of_static {i : Instr} {s : State} (hs : s.scene = .static) (ha : i ≠ .actd)
    (hr : isReset i = false) (ho : isOperation i = true) : Silent s (perform i s) := by
  cases i with
  | nop | begin | sclr | srgb => exact ⟨fun _ => rfl, rfl⟩
  | setdmx | setcc => exact setDmxValue_silent_of_static hs _
  | setgain | setatt => exact setGainTo_silent_of_static hs _
  | spush colour channel => rw [perform, pushChannel_frame]; exact ⟨fun _ => rfl, rfl⟩
  | acts => rw [perform, activateStatic_of_static hs]; exact silent_refl s
  | actd => exact absurd rfl ha
  | poll | rxbyte | rxbyteStatus | ccframe => exact silent_of_receives rfl hs
  | outevent => cases ho
  | reset => cases hr

theorem isReset_decodeCommand (w : Command) : isReset (decodeCommand w) = false := by
  unfold decodeCommand
  split <;> rfl

theorem isReset_decodeByte (b : Byte) : isReset (decodeByte b) = false := by
  unfold decodeByte
  split <;> rfl

/-- Only a unit of the reset input decodes to a `RESET` (R84). -/
theorem eq_rst_of_decode_reset {e : Event} {ch : MidiChan} (hd : decode e = .ok (.reset ch)) : e = .rst ch := by
  cases e with
  | cmd w => cases (isReset_decodeCommand w).symm.trans (congrArg isReset (Except.ok.inj hd))
  | rx b => cases (isReset_decodeByte b).symm.trans (congrArg isReset (Except.ok.inj hd))
  | frame f =>
    rw [decode, decodeFrame] at hd
    split at hd <;> cases hd
  | outp e =>
    rw [decode, decodeOutput] at hd
    split at hd <;> cases hd
  | rst n =>
    cases hd
    rfl
  | src bytes => cases hd

/-- Settles O53: every operation the clauses admit is silent (`perform_silent_of_static`); a step waits, feeds the byte
source or performs such an operation, since only the reset input decodes to a `RESET` (`eq_rst_of_decode_reset`). -/
theorem staticSceneIsSilent : Obligations.StaticSceneIsSilent := by
  refine ⟨fun i s t hs ha hr ho h => ?_, fun s t hs hunit h => ?_⟩
  · obtain ⟨-, rfl⟩ := (exec_next_iff i s t).1 h
    exact perform_silent_of_static hs ha hr ((isOperation_true_iff i).2 ho)
  · obtain ⟨-, rfl⟩ | ⟨e, rest, hin, ⟨bytes, -, rfl⟩ | ⟨i, hd, ho, hx⟩⟩ := step_cases h
    · exact silent_refl _
    · exact ⟨fun _ => rfl, rfl⟩
    · obtain ⟨hactd, hrst⟩ := hunit e rest hin
      have ha : i ≠ .actd := by
        rintro rfl
        exact hactd hd
      have hr : isReset i = false := by
        rw [← Bool.not_eq_true, isReset_true_iff]
        rintro ⟨ch, rfl⟩
        exact hrst ch (eq_rst_of_decode_reset hd)
      obtain ⟨-, rfl⟩ := (exec_next_iff i _ t).1 hx
      exact perform_silent_of_static (s := { s with input := rest }) hs ha hr ho

end Sys2Proof.Proofs
end

section
/-! Proofs. The bridge to the host (44_bridge R171 to R175): the poll, the attenuator and the two operations without
effect. -/

namespace Sys2Proof.Proofs

open Sys2Proof.Machine Sys2Proof.Laws

/-- Settles O18: `perform` leaves the state for both. -/
theorem nopAndBeginChangeNothing : Obligations.NopAndBeginChangeNothing :=
  fun _ hl => ⟨exec_of_live .nop hl, exec_of_live .begin hl⟩

/-- A gain write tracks the clamped operand whether or not it is applied (R137). -/
theorem setGainTo_gainTrk (g : Half) (s : State) : (setGainTo g s).gainTrk = clampGain g := by
  rw [setGainTo_eq]

/-- A reading of full scale or more maps to at least unity before the clamp (R173). -/
theorem unity_le_of_fullScale {m raw : Nat} (hm : 1 ≤ m) (h : m ≤ raw) : 1024 ≤ raw * 1024 / m := by
  rw [Nat.le_div_iff_mul_le hm, Nat.mul_comm]
  exact Nat.mul_le_mul_right 1024 h

/-- Settles O27: `SETATT` writes the gain `attenuation` gives, which is at most unity, so that the clamp of the gain
write leaves it (`setGainTo_gainTrk`). -/
theorem setattMapsTheReadingToAGain : Obligations.SetattMapsTheReadingToAGain := by
  intro raw s hl hm g
  refine ⟨rfl, fun h => ?_, fun h => Nat.min_eq_left (unity_le_of_fullScale hm h), _, exec_of_live _ hl, ?_⟩
  · simp [g, h]
  · rw [perform, setGainTo_gainTrk, clampGain_toNat, attenuation_toNat]
    exact Nat.min_eq_left (Nat.min_le_left _ _)

/-- Receiving bytes does not look at the byte source. -/
theorem feed_setRxq (bytes : List Byte) (s : State) (q : List Byte) :
    feed bytes { s with rxq := q } = ({ (feed bytes s).1 with rxq := q }, (feed bytes s).2) := by
  induction bytes generalizing s with
  | nil => rfl
  | cons b bytes ih => simp only [feed, receiveByte_setRxq, ih]

/-- Bytes received in two portions are received one after the other. -/
theorem feed_append (early late : List Byte) (s : State) :
    feed (early ++ late) s =
      ((feed late (feed early s).1).1, (feed early s).2 + (feed late (feed early s).1).2) := by
  induction early generalizing s with
  | nil => simp [feed]
  | cons b early ih =>
    simp only [List.cons_append, feed, ih]
    rw [Nat.add_right_comm]

/-- A poll of bytes that complete no frame receives them all (R172 (a), (c)). -/
theorem pollLoop_of_no_frame (bytes : List Byte) {s : State} (h : (feed bytes s).2 = 0) :
    pollLoop bytes { s with rxq := bytes } = { (feed bytes s).1 with rxq := [] } := by
  induction bytes generalizing s with
  | nil => rfl
  | cons b bytes ih =>
    obtain ⟨hb, hrest⟩ := (feed_cons_complete_none b bytes s).1 h
    exact (pollLoop_skip ((receiveByte_setRxq b s bytes).trans (by rw [hb]))).trans (ih hrest)

/-- A poll goes on after waiting bytes that complete no frame as if they had been received before it (R171). -/
theorem perform_poll_of_no_frame {early late : List Byte} {s : State} (hq : s.rxq = early ++ late)
    (h : (feed early s).2 = 0) : perform .poll s = pollLoop late { (feed early s).1 with rxq := late } := by
  have e := pollLoop_append early late h
  rwa [pollLoop_of_no_frame early h, ← hq] at e

/-- Bytes complete no frame, or there is a first byte among them that does. -/
theorem no_frame_or_first_frame (bytes : List Byte) (s : State) :
    (feed bytes s).2 = 0 ∨
      ∃ early b rest, bytes = early ++ b :: rest ∧ (feed early s).2 = 0 ∧
        (receiveByte b (feed early s).1).2 = true := by
  induction bytes generalizing s with
  | nil => exact .inl rfl
  | cons b bytes ih =>
    cases hb : (receiveByte b s).2 with
    | true => exact .inr ⟨[], b, bytes, rfl, rfl, hb⟩
    | false =>
      obtain h | ⟨early, last, rest, rfl, hearly, hlast⟩ := ih (receiveByte b s).1
      · exact .inl ((feed_cons_complete_none b bytes s).2 ⟨hb, h⟩)
      · exact .inr ⟨b :: early, last, rest, rfl, (feed_cons_complete_none b early s).2 ⟨hb, hearly⟩, hlast⟩

/-- A poll ends at the byte that completes the first frame (R171, D6). -/
theorem perform_poll_of_first_frame {early rest : List Byte} {b : Byte} {s : State} (hq : s.rxq = early ++ b :: rest)
    (h : (feed early s).2 = 0) (hb : (receiveByte b (feed early s).1).2 = true) :
    perform .poll s = { (receiveByte b (feed early s).1).1 with rxq := rest } := by
  rw [perform_poll_of_no_frame hq h]
  exact pollLoop_done ((receiveByte_setRxq b (feed early s).1 rest).trans (by rw [hb]))

/-- Settles O42: without a frame the poll takes everything (`pollLoop_of_no_frame`), otherwise the bytes up to and
including the one that completes the first frame (`perform_poll_of_first_frame`). -/
theorem pollReceivesUpToOneFrame : Obligations.PollReceivesUpToOneFrame := by
  intro s hl
  refine ⟨perform .poll s, ?_⟩
  obtain h | ⟨early, b, rest, hq, hearly, hb⟩ := no_frame_or_first_frame s.rxq s
  · have e : perform .poll s = { (feed s.rxq s).1 with rxq := [] } := pollLoop_of_no_frame s.rxq h
    refine ⟨s.rxq, [], 0, exec_of_live .poll hl, (List.append_nil _).symm, ?_⟩
    rw [e, feed_setRxq s.rxq s [], h]
    exact ⟨rfl, rfl, Nat.zero_le 1, fun _ => rfl, fun h => absurd h (by decide)⟩
  · have hfeed : feed (early ++ [b]) s = ((receiveByte b (feed early s).1).1, 1) := by
      rw [feed_append, hearly]
      simp [feed, hb]
    refine ⟨early ++ [b], rest, 1, exec_of_live .poll hl, hq.trans (List.append_cons early b rest), ?_⟩
    rw [perform_poll_of_first_frame hq hearly hb, feed_setRxq (early ++ [b]) s rest, hfeed, List.dropLast_concat,
      feed_setRxq early s rest]
    exact ⟨rfl, rfl, Nat.le_refl 1, fun h => absurd h (by decide), fun _ => hearly⟩

/-- Bytes that are not the status byte of `CFG_CH` are received without effect while no frame is begun (R112). -/
theorem feed_of_noise {noise : List Byte} {s : State} (hp : s.pst = .waitStatus)
    (hn : ∀ b ∈ noise, b.toNat ≠ 0xB0 + s.cfgCh.toNat) : feed noise s = (s, 0) := by
  induction noise with
  | nil => rfl
  | cons b noise ih =>
    obtain ⟨hb, hrest⟩ := List.forall_mem_cons.1 hn
    simp [feed, receiveByte_of_noise hp hb, ih hrest]

/-- A poll that meets a frame for `CFG_CH` performs its `SETCC` and ends there (R171, D6). -/
theorem pollLoop_frame_for_cfgCh {b : Byte} (c v : Byte) (rest : List Byte) {s : State} (hp : s.pst = .waitStatus)
    (hb : b.toNat = 0xB0 + s.cfgCh.toNat) :
    pollLoop (b :: c :: v :: rest) s = setDmxValue (mapCc c v) { s with ctl := c, rxq := rest } := by
  rw [pollLoop_skip (receiveByte_of_status (s := { s with rxq := c :: v :: rest }) hp hb),
    pollLoop_skip (receiveByte_of_haveStatus c rfl), pollLoop_done (receiveByte_of_haveChannel v rfl), ← hp]

/-- Settles O43: the noise leaves the state (`feed_of_noise`), and the poll ends with the frame behind it
(`pollLoop_frame_for_cfgCh`). -/
theorem pollSkipsNoiseToTheFirstFrame : Obligations.PollSkipsNoiseToTheFirstFrame := by
  intro s noise rest c v hl hp hn hq
  have hfeed := feed_of_noise hp hn
  have hstatus : (BitVec.ofNat 8 (0xB0 + s.cfgCh.toNat)).toNat = 0xB0 + s.cfgCh.toNat := by
    rw [← ccMarker_append, ccMarker_append_toNat]
  have hpoll : perform .poll s = setDmxValue (mapCc c v) { s with ctl := c, rxq := rest } := by
    rw [perform_poll_of_no_frame hq (congrArg Prod.snd hfeed), hfeed]
    exact pollLoop_frame_for_cfgCh c v rest hp hstatus
  obtain ⟨-, -, -, -, hrxq, -⟩ := setDmxValue_keeps (mapCc c v) { s with ctl := c, rxq := rest }
  exact ⟨exec_eq_of_perform_eq hl hl hpoll, _, exec_of_live .poll hl, by rw [hpoll]; exact hrxq⟩

end Sys2Proof.Proofs
end

section
/-! Proofs. Every operation completes (60_exceptions R180). -/

namespace Sys2Proof.Proofs

open Sys2Proof.Machine Sys2Proof.Laws

/-- The step of a live core that takes a unit performs the operation it decodes to. -/
theorem step_of_decode_of_live {s : State} {e : Event} {rest : List Event} {i : Instr} (hi : s.input = e :: rest)
    (hd : decode e = .ok i) (ho : isOperation i = true) (hl : s.live = true) :
    step s = .next (perform i { s with input := rest }) :=
  (step_of_decode hi hd ho).trans (exec_of_live (s := { s with input := rest }) i hl)

/-- Settles O10: a live core performs every operation (`exec_of_live`), there is no fault to raise, and command words,
bytes and resets all decode to operations (`step_of_decode_of_live`). -/
theorem everyOperationCompletes : Obligations.EveryOperationCompletes := by
  refine ⟨fun i s hl => ⟨_, exec_of_live i hl⟩, (fun _ f => nomatch f), fun s e rest hl hi he => ?_⟩
  obtain ⟨w, rfl⟩ | ⟨b, rfl⟩ | ⟨ch, rfl⟩ := he
  · exact ⟨_, step_of_decode_of_live hi rfl (isOperation_decodeCommand w) hl⟩
  · exact ⟨_, step_of_decode_of_live hi rfl (isOperation_decodeByte b) hl⟩
  · exact ⟨_, step_of_decode_of_live hi rfl rfl hl⟩

end Sys2Proof.Proofs
end

section
/-! Proofs. The reset event and the time before it (70_reset_and_hazards R200, R201). -/

namespace Sys2Proof.Proofs

open Sys2Proof.Machine Sys2Proof.Laws

/-- Settles O12: the registers `RESET` writes are those of `State.reset` (O11), but for `CFG_CH`; what lies beside them
it leaves. -/
theorem resetSetsEveryRegister : Obligations.ResetSetsEveryRegister := by
  intro ch s
  obtain ⟨files, -, -, -, -, -, -, perColour, -⟩ := resetStateHasTheTableValues
  exact ⟨resetTo ch s, rfl, files, rfl, rfl, rfl, rfl, rfl, rfl, perColour, rfl, rfl, rfl, rfl, rfl⟩

/-- Settles O13: every operation but `RESET` completes only in a live core (`exec_of_not_isReset`). -/
theorem nothingRunsBeforeReset : Obligations.NothingRunsBeforeReset := by
  intro i s hl hr
  rw [exec_of_not_isReset hr, whenLive_of_not_live hl]

end Sys2Proof.Proofs
end

section
/-! Proofs. How many events an operation delivers (70_reset_and_hazards R219). -/

namespace Sys2Proof.Proofs

open Sys2Proof.Machine Sys2Proof.Laws

/-- Writes through `Emit` deliver at most one event each (R131). -/
theorem length_append_planEvents_le {p : List (Chan × Byte)} {n : Nat} (h : p.length ≤ n) (trace : List OutEvent)
    (shown : ChanFile) : (trace ++ planEvents shown p).length ≤ trace.length + n := by
  rw [List.length_append]
  exact Nat.add_le_add_left ((planEvents_length p shown).trans h) _

@[simp] theorem length_channels : channels.length = 128 := by
  simp [channels, nch]

theorem gainPlan_length_le (g : Half) (f : ChanFile) (scene : Scene) (applied : Gain) :
    (gainPlan g f scene applied).length ≤ 128 := by
  unfold gainPlan
  split <;> simp

/-- The three lists hold at most `3 * LCAP` entries (R33, R37 INV3). -/
theorem staticPlan_length_le {s : State} (h : ListsBounded s) (value : Colour → Byte) :
    (staticPlan s value).length ≤ 3 * s.params.lcap := by
  have hlen : (staticPlan s value).length = lenAt s .red + (lenAt s .green + lenAt s .blue) := by
    simp [staticPlan, colours, lenAt]
  have hr := h .red
  have hg := h .green
  have hb := h .blue
  omega

theorem actsPlan_length_le {s : State} (h : ListsBounded s) : (actsPlan s).length ≤ 128 + 3 * s.params.lcap := by
  unfold actsPlan
  split
  · simpa using staticPlan_length_le h (colorAt s)
  · exact Nat.zero_le _

theorem actdPlan_length_le {s : State} (h : ListsBounded s) : (actdPlan s).length ≤ 3 * s.params.lcap + 128 := by
  unfold actdPlan
  split
  · simpa using staticPlan_length_le h fun _ => 0#8
  · exact Nat.zero_le _

theorem setGainTo_trace_length (g : Half) (s : State) :
    (setGainTo g s).trace.length ≤ s.trace.length + 128 := by
  rw [setGainTo_eq]
  exact length_append_planEvents_le (gainPlan_length_le g s.dyn s.scene s.gainRef) _ _

/-- How many bytes of a frame the parser has taken (R25). -/
def frameProgress : Pst → Nat
  | .waitStatus => 0
  | .haveStatus => 1
  | .haveChannel => 2

/-- A byte brings the parser at most one byte further, and a completed frame uses up three (R111 to R114). -/
theorem frameProgress_receiveByte (b : Byte) (s : State) :
    frameProgress (receiveByte b s).1.pst + 3 * (if (receiveByte b s).2 then 1 else 0) ≤ frameProgress s.pst + 1 := by
  obtain ⟨hp, -, e⟩ | ⟨hp, -, e⟩ | ⟨hp, e⟩ | ⟨hp, e⟩ := receiveByte_cases b s <;> rw [e, hp]
  case inr.inr.inr =>
    obtain ⟨hpst, -⟩ := setDmxValue_parser (mapCc s.ctl b) { s with pst := .waitStatus }
    simp [setCcValue, hpst, frameProgress]
  all_goals simp [frameProgress]

/-- A byte shows nothing unless it completes a frame, and then at most one channel (R112 to R114). -/
theorem receiveByte_trace_length (b : Byte) (s : State) :
    (receiveByte b s).1.trace.length ≤ s.trace.length + if (receiveByte b s).2 then 1 else 0 := by
  obtain ⟨-, -, e⟩ | ⟨-, -, e⟩ | ⟨-, e⟩ | ⟨-, e⟩ := receiveByte_cases b s <;> rw [e]
  case inr.inr.inr => exact setDmxValue_trace_length (mapCc s.ctl b) { s with pst := .waitStatus }
  all_goals exact Nat.le_refl _

/-- Received bytes complete at most one frame in three, counting those the parser has taken before. -/
theorem frameProgress_feed (bytes : List Byte) (s : State) :
    frameProgress (feed bytes s).1.pst + 3 * (feed bytes s).2 ≤ frameProgress s.pst + bytes.length := by
  induction bytes generalizing s with
  | nil => exact Nat.le_refl _
  | cons b bytes ih =>
    have hb := frameProgress_receiveByte b s
    have hrest := ih (receiveByte b s).1
    simp only [feed, List.length_cons]
    omega

/-- Received bytes deliver at most one event for each frame they complete. -/
theorem feed_trace_length (bytes : List Byte) (s : State) :
    (feed bytes s).1.trace.length ≤ s.trace.length + (feed bytes s).2 := by
  induction bytes generalizing s with
  | nil => exact Nat.le_refl _
  | cons b bytes ih =>
    have hb := receiveByte_trace_length b s
    have hrest := ih (receiveByte b s).1
    simp only [feed]
    omega

/-- Three bytes or fewer complete at most one frame, wherever the parser stands, so they deliver at most one event. -/
theorem feed_trace_length_of_short {bytes : List Byte} (h : bytes.length ≤ 3) (s : State) :
    (feed bytes s).1.trace.length ≤ s.trace.length + 1 := by
  have hprogress := frameProgress_feed bytes s
  have hpst : frameProgress s.pst ≤ 2 := by cases s.pst <;> decide
  have hevents := feed_trace_length bytes s
  omega

/-- A poll completes at most one frame (O42, D6), so it delivers at most one event. -/
theorem exec_poll_trace_length {s t : State} (h : exec .poll s = .next t) :
    t.trace.length ≤ s.trace.length + 1 := by
  obtain ⟨hl, -⟩ := (exec_next_iff .poll s t).1 h
  obtain ⟨u, taken, rest, n, hu, -, -, hfeed, hn, -⟩ := pollReceivesUpToOneFrame s (hl.resolve_left (by decide))
  cases hu.symm.trans h
  have hevents := feed_trace_length taken { s with rxq := rest }
  rw [hfeed] at hevents
  exact hevents.trans (Nat.add_le_add_left hn _)

/-- Settles O55: the bound of each operation is that of the writes it performs (`length_append_planEvents_le`), or of
the frames it completes (`feed_trace_length`). -/
theorem eventCountIsBounded : Obligations.EventCountIsBounded := by
  intro i s t hb h
  obtain ⟨-, rfl⟩ := (exec_next_iff i s t).1 h
  cases i with
  | nop | begin | sclr | srgb | reset => exact Nat.le_refl _
  | spush colour channel => rw [perform, pushChannel_eq]; exact Nat.le_refl _
  | setdmx | setcc => exact setDmxValue_trace_length _ s
  | setgain | setatt => exact setGainTo_trace_length _ s
  | acts =>
    rw [perform, activateStatic_eq]
    exact length_append_planEvents_le (actsPlan_length_le hb) _ _
  | actd =>
    rw [perform, activateDynamic_eq]
    exact length_append_planEvents_le (actdPlan_length_le hb) _ _
  | poll => exact exec_poll_trace_length h
  | rxbyte b => exact feed_trace_length_of_short (bytes := [b]) (by simp) s
  | rxbyteStatus n => exact feed_trace_length_of_short (bytes := [ccMarker ++ n]) (by simp) s
  | ccframe n c v => exact feed_trace_length_of_short (bytes := [ccMarker ++ n, c, v]) (by simp) s
  | outevent c v =>
    rw [perform, emit_trace]
    exact length_append_planEvents_le (p := [(c, v)]) (Nat.le_refl 1) _ _

end Sys2Proof.Proofs
end
